-- ==== Sys2Proof/Word.lean ====
section
/-! DEFINITION. The two word widths of the block: 8-bit registers and memory bytes, and 16-bit
addresses (00_scope.md R14: REG_WIDTH, PC_WIDTH). Bit 0 is the least significant bit (R15). -/

namespace Sys2Proof

/-- A byte: `a`, `x`, `y`, `p` and every memory cell (R14, REG_WIDTH). -/
abbrev Byte := BitVec 8

/-- A 16-bit word: the program counter and every effective address (R14, PC_WIDTH). -/
abbrev Word := BitVec 16

end Sys2Proof
end

