-- ==== Sys2Proof/Config.lean ====
section
/-! DEFINITION. What is fixed for one block (00_scope.md R14): the constants the source fixes, and
the type of the parameters it leaves open. The values this model takes for the parameters are
`Sys2Proof.Machine.params` (Machine/Params.lean); CATALOG is `Sys2Proof.catalog` (Decode.lean).
The spec leaves no value free (93_implementation_defined.md Part 1), so there is no opaque constant. -/

namespace Sys2Proof.Config

/-- RESET_VECTOR: the address of the vector's low byte; the high byte is at the next address (R14, R48). -/
def resetVector : Word := 0xFFFC#16

/-- LOAD_ORIGIN: where the host's `load` places a program (R14, R48, R56). -/
def loadOrigin : Word := 0x8000#16

/-- MEM_SIZE: addresses run from 0 to 65535 (R14, R36). -/
def memSize : Nat := 65536

/-- Where a zero-page pointer's high byte is read (R90, R91): at `(ptr + 1) mod 256`, or at the
next 16-bit address. -/
inductive HiWrap where
  | zeroPage
  | linear
  deriving DecidableEq, Repr

/-- The base of a Relative address (R85): the counter at the offset byte, or the one after it. -/
inductive RelBase where
  | operandAddress
  | nextInstruction
  deriving DecidableEq, Repr

/-- How the Relative offset byte is widened (R85). -/
inductive RelExt where
  | sign
  | zero
  deriving DecidableEq, Repr

/-- The named parameters of R14 that the source leaves open. -/
structure Params where
  /-- STORE_SETS_FLAGS: StoreA writes Z and N from the stored value (R113). -/
  storeSetsFlags : Bool
  /-- RESET_CLEARS_Y: `reset()` writes 0 into `y` (R21, R154). -/
  resetClearsY : Bool
  /-- INDX_HI_WRAP: the Indirect_X pointer's high byte (R90). -/
  indxHiWrap : HiWrap
  /-- INDY_HI_WRAP: the Indirect_Y pointer's high byte (R91). -/
  indyHiWrap : HiWrap
  /-- REL_BASE: the base of a Relative address (R85). -/
  relBase : RelBase
  /-- REL_EXT: the widening of a Relative offset (R85). -/
  relExt : RelExt
  deriving DecidableEq, Repr

end Sys2Proof.Config
end

