-- ==== Sys2Proof/Syntax.lean ====
section
/-! DEFINITION. The instruction set as data: mnemonics, addressing modes, catalog rows, operands, and
`Instr` with one constructor per row of spec/opcode_table.json (30_encoding.md R59-R71). -/

namespace Sys2Proof

/-- The closed set of mnemonics (00_scope.md R2, R64). -/
inductive Mnemonic where
  | halt
  | loadA
  | loadX
  | loadY
  | storeA
  | transferAtoX
  | incrementX
  deriving DecidableEq, Repr

/-- The closed set of thirteen addressing modes (R64, 40_addressing.md R79-R91). -/
inductive AddrMode where
  | implied
  | accumulator
  | immediate
  | zeroPage
  | zeroPageX
  | zeroPageY
  | relative
  | absolute
  | absoluteX
  | absoluteY
  | indirect
  | indirectX
  | indirectY
  deriving DecidableEq, Repr

/-- The number of operand bytes of a mode, which is also the resolver's counter advance (R59, R92). -/
def AddrMode.byteCount : AddrMode → Nat
  | .implied | .accumulator => 0
  | .immediate | .zeroPage | .zeroPageX | .zeroPageY | .relative | .indirectX | .indirectY => 1
  | .absolute | .absoluteX | .absoluteY | .indirect => 2

/-- A catalog row: "immutable {hex byte, mnemonic, cycle cost, addressing mode}" (R64). The cycle
cost is informative data that nothing reads (R76; log entry 13). -/
structure OpcodeRecord where
  hex : Byte
  mnemonic : Mnemonic
  cycles : Nat
  mode : AddrMode
  deriving DecidableEq, Repr

/-- The operand bytes after the opcode, assembled: none (format F1), one byte (F2), or a
little-endian word (F3) (R60, R61). -/
inductive Operand where
  | none
  | byte (b : Byte)
  | word (w : Word)
  deriving DecidableEq, Repr

/-- One instruction: a catalog row with its operand. One constructor per row of
spec/opcode_table.json, named by the row's mnemonic and mode (R67-R70). -/
inductive Instr where
  | halt
  | loadAImmediate (imm : Byte)
  | loadAZeroPage (zp : Byte)
  | loadAZeroPageX (zp : Byte)
  | loadAAbsolute (abs : Word)
  | loadAAbsoluteX (abs : Word)
  | loadAAbsoluteY (abs : Word)
  | loadAIndirectX (zp : Byte)
  | loadAIndirectY (zp : Byte)
  | loadXImmediate (imm : Byte)
  | loadXZeroPage (zp : Byte)
  | loadXZeroPageY (zp : Byte)
  | loadXAbsolute (abs : Word)
  | loadXAbsoluteY (abs : Word)
  | loadYImmediate (imm : Byte)
  | loadYZeroPage (zp : Byte)
  | loadYZeroPageX (zp : Byte)
  | loadYAbsolute (abs : Word)
  | loadYAbsoluteX (abs : Word)
  | storeAZeroPage (zp : Byte)
  | storeAZeroPageX (zp : Byte)
  | storeAAbsolute (abs : Word)
  | storeAAbsoluteX (abs : Word)
  | storeAAbsoluteY (abs : Word)
  | storeAIndirectX (zp : Byte)
  | storeAIndirectY (zp : Byte)
  | transferAtoX
  | incrementX
  deriving DecidableEq, Repr

end Sys2Proof
end

