-- ==== Sys2Proof/WellFormed.lean ====
section
/-! DEFINITION. The well-formedness checks of the spec: a catalog's bytes are unique (30_encoding.md
R65), a row's mode gives an address when its mnemonic needs one (R71), and an instruction's operand
has its mode's byte count (R59). Operand bytes have no illegal values (R72), so no check restricts one. -/

namespace Sys2Proof

/-- Whether the handler of a mnemonic needs an effective address (R71, R124). -/
def Mnemonic.needsAddress : Mnemonic → Bool
  | .loadA | .loadX | .loadY | .storeA => true
  | .halt | .transferAtoX | .incrementX => false

/-- Whether a mode produces an effective address: all but Implied and Accumulator (R71, R92). -/
def AddrMode.givesAddress : AddrMode → Bool
  | .implied | .accumulator => false
  | .immediate | .zeroPage | .zeroPageX | .zeroPageY | .relative | .absolute | .absoluteX | .absoluteY
  | .indirect | .indirectX | .indirectY => true

/-- R71: a mnemonic that needs an address has a mode that produces one. -/
def OpcodeRecord.wf (r : OpcodeRecord) : Bool :=
  !r.mnemonic.needsAddress || r.mode.givesAddress

/-- R65: "hex byte is unique across the catalog". -/
def uniqueBytes : List OpcodeRecord → Bool
  | [] => true
  | r :: rs => rs.all (fun q => q.hex != r.hex) && uniqueBytes rs

/-- R65 and R71 together: what a catalog must meet for the block never to raise a resolution fault. -/
def catalogWf (cat : List OpcodeRecord) : Bool :=
  uniqueBytes cat && cat.all OpcodeRecord.wf

/-- R59: the operand has exactly the mode's operand bytes. -/
def Operand.fits : AddrMode → Operand → Bool
  | m, .none => m.byteCount == 0
  | m, .byte _ => m.byteCount == 1
  | m, .word _ => m.byteCount == 2

/-- The mnemonic, mode and operand an instruction stands for (R67-R70). -/
def Instr.shape : Instr → Mnemonic × AddrMode × Operand
  | .halt => (.halt, .implied, .none)
  | .loadAImmediate imm => (.loadA, .immediate, .byte imm)
  | .loadAZeroPage zp => (.loadA, .zeroPage, .byte zp)
  | .loadAZeroPageX zp => (.loadA, .zeroPageX, .byte zp)
  | .loadAAbsolute abs => (.loadA, .absolute, .word abs)
  | .loadAAbsoluteX abs => (.loadA, .absoluteX, .word abs)
  | .loadAAbsoluteY abs => (.loadA, .absoluteY, .word abs)
  | .loadAIndirectX zp => (.loadA, .indirectX, .byte zp)
  | .loadAIndirectY zp => (.loadA, .indirectY, .byte zp)
  | .loadXImmediate imm => (.loadX, .immediate, .byte imm)
  | .loadXZeroPage zp => (.loadX, .zeroPage, .byte zp)
  | .loadXZeroPageY zp => (.loadX, .zeroPageY, .byte zp)
  | .loadXAbsolute abs => (.loadX, .absolute, .word abs)
  | .loadXAbsoluteY abs => (.loadX, .absoluteY, .word abs)
  | .loadYImmediate imm => (.loadY, .immediate, .byte imm)
  | .loadYZeroPage zp => (.loadY, .zeroPage, .byte zp)
  | .loadYZeroPageX zp => (.loadY, .zeroPageX, .byte zp)
  | .loadYAbsolute abs => (.loadY, .absolute, .word abs)
  | .loadYAbsoluteX abs => (.loadY, .absoluteX, .word abs)
  | .storeAZeroPage zp => (.storeA, .zeroPage, .byte zp)
  | .storeAZeroPageX zp => (.storeA, .zeroPageX, .byte zp)
  | .storeAAbsolute abs => (.storeA, .absolute, .word abs)
  | .storeAAbsoluteX abs => (.storeA, .absoluteX, .word abs)
  | .storeAAbsoluteY abs => (.storeA, .absoluteY, .word abs)
  | .storeAIndirectX zp => (.storeA, .indirectX, .byte zp)
  | .storeAIndirectY zp => (.storeA, .indirectY, .byte zp)
  | .transferAtoX => (.transferAtoX, .implied, .none)
  | .incrementX => (.incrementX, .implied, .none)

/-- The mnemonic of an instruction. -/
def Instr.mnemonic (i : Instr) : Mnemonic := i.shape.1

/-- The addressing mode of an instruction. -/
def Instr.mode (i : Instr) : AddrMode := i.shape.2.1

/-- The operand of an instruction. -/
def Instr.operand (i : Instr) : Operand := i.shape.2.2

/-- An instruction is well formed when its mnemonic and mode go together (R71) and its operand has
the mode's width (R59). -/
def Instr.wf (i : Instr) : Bool :=
  (!i.mnemonic.needsAddress || i.mode.givesAddress) && Operand.fits i.mode i.operand

end Sys2Proof
end

