-- ==== Sys2Proof/Decode.lean ====
section
/-! DEFINITION. The decoder (00_scope.md R7, 30_encoding.md R59-R73): the catalog, the lookup of an
opcode byte in it, the assembly of operand bytes, and after them the encoder. -/

namespace Sys2Proof

/-- `hi ++ lo`: a word from its bytes (R42, R44). -/
def joinBytes (hi lo : Byte) : Word := hi ++ lo

/-- `w[7:0]` (R15, R43). -/
def loByte (w : Word) : Byte := w.extractLsb' 0 8

/-- `w[15:8]` (R15, R43). -/
def hiByte (w : Word) : Byte := w.extractLsb' 8 8

/-- CATALOG, the default: the 28 rows of R67-R70 "and exactly those" (R66; log entry 5). -/
def catalog : List OpcodeRecord := [
  ⟨0x00#8, .halt, 7, .implied⟩,
  ⟨0xA9#8, .loadA, 2, .immediate⟩,
  ⟨0xA5#8, .loadA, 3, .zeroPage⟩,
  ⟨0xB5#8, .loadA, 4, .zeroPageX⟩,
  ⟨0xAD#8, .loadA, 4, .absolute⟩,
  ⟨0xBD#8, .loadA, 4, .absoluteX⟩,
  ⟨0xB9#8, .loadA, 4, .absoluteY⟩,
  ⟨0xA1#8, .loadA, 6, .indirectX⟩,
  ⟨0xB1#8, .loadA, 5, .indirectY⟩,
  ⟨0xA2#8, .loadX, 2, .immediate⟩,
  ⟨0xA6#8, .loadX, 3, .zeroPage⟩,
  ⟨0xB6#8, .loadX, 4, .zeroPageY⟩,
  ⟨0xAE#8, .loadX, 4, .absolute⟩,
  ⟨0xBE#8, .loadX, 4, .absoluteY⟩,
  ⟨0xA0#8, .loadY, 2, .immediate⟩,
  ⟨0xA4#8, .loadY, 3, .zeroPage⟩,
  ⟨0xB4#8, .loadY, 4, .zeroPageX⟩,
  ⟨0xAC#8, .loadY, 4, .absolute⟩,
  ⟨0xBC#8, .loadY, 4, .absoluteX⟩,
  ⟨0x85#8, .storeA, 3, .zeroPage⟩,
  ⟨0x95#8, .storeA, 4, .zeroPageX⟩,
  ⟨0x8D#8, .storeA, 4, .absolute⟩,
  ⟨0x9D#8, .storeA, 5, .absoluteX⟩,
  ⟨0x99#8, .storeA, 5, .absoluteY⟩,
  ⟨0x81#8, .storeA, 6, .indirectX⟩,
  ⟨0x91#8, .storeA, 6, .indirectY⟩,
  ⟨0xAA#8, .transferAtoX, 2, .implied⟩,
  ⟨0xE8#8, .incrementX, 2, .implied⟩]

/-- `decode(opcode)` of R66: the row of `cat` with that byte, or none. -/
def lookup (cat : List OpcodeRecord) (opcode : Byte) : Option OpcodeRecord :=
  cat.find? (fun r => r.hex == opcode)

/-- The instruction of a row's mnemonic and mode with its operand; none for a pair that no row of the
default catalog has. -/
def Instr.ofShape : Mnemonic → AddrMode → Operand → Option Instr
  | .halt, .implied, .none => some .halt
  | .loadA, .immediate, .byte imm => some (.loadAImmediate imm)
  | .loadA, .zeroPage, .byte zp => some (.loadAZeroPage zp)
  | .loadA, .zeroPageX, .byte zp => some (.loadAZeroPageX zp)
  | .loadA, .absolute, .word abs => some (.loadAAbsolute abs)
  | .loadA, .absoluteX, .word abs => some (.loadAAbsoluteX abs)
  | .loadA, .absoluteY, .word abs => some (.loadAAbsoluteY abs)
  | .loadA, .indirectX, .byte zp => some (.loadAIndirectX zp)
  | .loadA, .indirectY, .byte zp => some (.loadAIndirectY zp)
  | .loadX, .immediate, .byte imm => some (.loadXImmediate imm)
  | .loadX, .zeroPage, .byte zp => some (.loadXZeroPage zp)
  | .loadX, .zeroPageY, .byte zp => some (.loadXZeroPageY zp)
  | .loadX, .absolute, .word abs => some (.loadXAbsolute abs)
  | .loadX, .absoluteY, .word abs => some (.loadXAbsoluteY abs)
  | .loadY, .immediate, .byte imm => some (.loadYImmediate imm)
  | .loadY, .zeroPage, .byte zp => some (.loadYZeroPage zp)
  | .loadY, .zeroPageX, .byte zp => some (.loadYZeroPageX zp)
  | .loadY, .absolute, .word abs => some (.loadYAbsolute abs)
  | .loadY, .absoluteX, .word abs => some (.loadYAbsoluteX abs)
  | .storeA, .zeroPage, .byte zp => some (.storeAZeroPage zp)
  | .storeA, .zeroPageX, .byte zp => some (.storeAZeroPageX zp)
  | .storeA, .absolute, .word abs => some (.storeAAbsolute abs)
  | .storeA, .absoluteX, .word abs => some (.storeAAbsoluteX abs)
  | .storeA, .absoluteY, .word abs => some (.storeAAbsoluteY abs)
  | .storeA, .indirectX, .byte zp => some (.storeAIndirectX zp)
  | .storeA, .indirectY, .byte zp => some (.storeAIndirectY zp)
  | .transferAtoX, .implied, .none => some .transferAtoX
  | .incrementX, .implied, .none => some .incrementX
  | _, _, _ => none

/-- The operand of a mode and the bytes after it; none when there are too few bytes. A 16-bit operand
is little-endian (R60, R61). -/
def takeOperand (m : AddrMode) (bytes : List Byte) : Option (Operand × List Byte) :=
  match m.byteCount, bytes with
  | 0, rest => some (.none, rest)
  | 1, b :: rest => some (.byte b, rest)
  | 2, lo :: hi :: rest => some (.word (joinBytes hi lo), rest)
  | _, _ => none

/-- What the decoder answers. -/
inductive DecodeResult where
  /-- An instruction, and the bytes after it. -/
  | ok (i : Instr) (rest : List Byte)
  /-- The byte has no catalog row (R66, R72): the step raises a decode fault (R141). -/
  | illegalOpcode (opcode : Byte)
  /-- The list ends inside the instruction; never the answer on bytes fetched from memory. -/
  | truncated
  deriving DecidableEq, Repr

/-- Decoding once the opcode byte's row is known: the operand the row's mode asks for (R60), then the
instruction of the row's mnemonic and mode. -/
def decodeRow (r : OpcodeRecord) (opcode : Byte) (rest : List Byte) : DecodeResult :=
  match takeOperand r.mode rest with
  | none => .truncated
  | some (o, rest') =>
    match Instr.ofShape r.mnemonic r.mode o with
    | none => .illegalOpcode opcode
    | some i => .ok i rest'

/-- The decoder on a list of bytes, lowest address first; total, rejecting by name (R59-R66, R72). -/
def decode : List Byte → DecodeResult
  | [] => .truncated
  | opcode :: rest =>
    match lookup catalog opcode with
    | none => .illegalOpcode opcode
    | some r => decodeRow r opcode rest

/-- The decoder's instruction, if it gives one. -/
def DecodeResult.toInstr : DecodeResult → Option Instr
  | .ok i _ => some i
  | .illegalOpcode _ => none
  | .truncated => none

/-- The bytes of an instruction word numbered as spec/opcode_table.json numbers it: bits 7..0 the
first byte, and so on; bits from `nbits` up are 0; three bytes, the longest instruction (R60). -/
def wordBytes (nbits w : Nat) : List Byte :=
  let v := w % 2 ^ nbits
  [BitVec.ofNat 8 v, BitVec.ofNat 8 (v / 256), BitVec.ofNat 8 (v / 65536)]

/-- What the decoder reads from an instruction word of the opcode table. -/
def decodeTableWord (nbits w : Nat) : Option Instr := (decode (wordBytes nbits w)).toInstr

/-- The opcode byte of each instruction, from the encodings of R95-R123. -/
def Instr.opcode : Instr → Byte
  | .halt => 0x00#8
  | .loadAImmediate _ => 0xA9#8
  | .loadAZeroPage _ => 0xA5#8
  | .loadAZeroPageX _ => 0xB5#8
  | .loadAAbsolute _ => 0xAD#8
  | .loadAAbsoluteX _ => 0xBD#8
  | .loadAAbsoluteY _ => 0xB9#8
  | .loadAIndirectX _ => 0xA1#8
  | .loadAIndirectY _ => 0xB1#8
  | .loadXImmediate _ => 0xA2#8
  | .loadXZeroPage _ => 0xA6#8
  | .loadXZeroPageY _ => 0xB6#8
  | .loadXAbsolute _ => 0xAE#8
  | .loadXAbsoluteY _ => 0xBE#8
  | .loadYImmediate _ => 0xA0#8
  | .loadYZeroPage _ => 0xA4#8
  | .loadYZeroPageX _ => 0xB4#8
  | .loadYAbsolute _ => 0xAC#8
  | .loadYAbsoluteX _ => 0xBC#8
  | .storeAZeroPage _ => 0x85#8
  | .storeAZeroPageX _ => 0x95#8
  | .storeAAbsolute _ => 0x8D#8
  | .storeAAbsoluteX _ => 0x9D#8
  | .storeAAbsoluteY _ => 0x99#8
  | .storeAIndirectX _ => 0x81#8
  | .storeAIndirectY _ => 0x91#8
  | .transferAtoX => 0xAA#8
  | .incrementX => 0xE8#8

/-- The bytes of an operand in memory order (R60, R61). -/
def Operand.bytes : Operand → List Byte
  | .none => []
  | .byte b => [b]
  | .word w => [loByte w, hiByte w]

/-- The encoder: the opcode byte, then the operand bytes (R60). -/
def encode (i : Instr) : List Byte := i.opcode :: i.operand.bytes

end Sys2Proof
end

