-- ==== Sys2Proof/Machine/State.lean ====
section
/-! DEFINITION. The state tuple of 10_state.md R18 as plain data, the reasons a step can stop, and the
state right after reset. -/

namespace Sys2Proof.Machine

/-- Memory: (address, byte) pairs, addresses strictly rising, no entry equal to 0x00, which is what an
unlisted address reads as, since memory is "zero-initialized at construction" (R36; log entry 15).
`Memory.wf` (Ops.lean) is the form. -/
abbrev Memory := List Host.Cell

/-- The execution loop's state (R34, R129). -/
inductive RunMode where
  | running
  | halted
  | faulted
  deriving DecidableEq, Repr

/-- The two fault classes with their records (R35, R136, R141, R142). The same data is State's fault
record. As an outcome of a step it is answered only by a step of a block that is already Faulted,
which takes no step and returns the record again (R132): safe, the block itself does nothing more.
The step that RAISES a fault answers a next state (R17). -/
inductive Fault where
  /-- Code 1, a byte with no catalog row and its address. Recorded by `takeDecodeFault`; answered by
  `stepStopped`. Safe. -/
  | decodeFault (opcode : Byte) (addr : Word)
  /-- Code 2, a row whose mnemonic needs an address and whose mode gives none. Recorded by `blockStep`
  with a catalog that breaks R71, never by `step`; answered by `stepStopped`. Safe. -/
  | resolutionFault (opcode : Byte) (addr : Word) (mode : AddrMode)
  deriving DecidableEq, Repr

/-- What has no meaning. -/
inductive Refusal where
  /-- An instruction whose meaning is not written; no arm of `exec` answers it now. Safe. -/
  | notModelled (mnemonic : String)
  /-- A step asked of a block that is not Running: "It is defined only when mode = Running" (R124).
  Answered by `stepStopped`; log entry 7. Safe: nothing is claimed of such a step. -/
  | notRunning (mode : RunMode)
  /-- A host `load` with `origin + len(bytes) > 0x10000` (R57). Answered by `load`. Safe. -/
  | loadPastTop (origin : Word) (length : Nat)
  /-- A catalog with a duplicate byte (R65). Answered by `withCatalog`, so by `blockOutcome` and
  every run of the host, never by `step`. Safe. -/
  | duplicateOpcode
  deriving DecidableEq, Repr

/-- The 8-bit registers an instruction can load (R19-R21). -/
inductive Reg where
  | a
  | x
  | y
  deriving DecidableEq, Repr

/-- The state of one instance of the block (R18). -/
structure State where
  /-- The program counter (R24). -/
  pc : Word
  /-- The accumulator (R19). -/
  a : Byte
  /-- Index-X (R20). -/
  x : Byte
  /-- Index-Y (R21). -/
  y : Byte
  /-- The status byte: Z is bit 1, N is bit 7, the rest reserved (R27-R30). -/
  p : Byte
  /-- The 64 KiB memory (R36). -/
  mem : Memory
  /-- The execution loop's state (R34). -/
  mode : RunMode
  /-- The fault record, none unless Faulted (R35). -/
  fault : Option Fault
  deriving DecidableEq, Repr

/-- The state right after the first reset of a new instance, `new()` then `reset()` (R153-R155): all
memory zero, so the vector and pc are 0x0000; `y` keeps the 0 of `new()` (log entries 2 and 8). -/
def State.reset : State where
  pc := 0x0000#16
  a := 0x00#8
  x := 0x00#8
  y := 0x00#8
  p := 0x00#8
  mem := []
  mode := .running
  fault := none

end Sys2Proof.Machine
end

