-- ==== Sys2Proof/Machine/Flags.lean ====
section
/-! DEFINITION. The flag unit (00_scope.md R11, 10_state.md R27-R32). -/

namespace Sys2Proof.Machine

/-- Z, bit 1 of the status byte (R28). -/
def zFlag (p : Byte) : Bool := p.getLsbD 1

/-- N, bit 7 of the status byte (R29). -/
def nFlag (p : Byte) : Bool := p.getLsbD 7

/-- The mask of the reserved bits 0, 2, 3, 4, 5 and 6 (R30). -/
def reservedMask : Byte := 0x7D#8

/-- `flags(p, v)` (R31): Z iff `v` is zero, N is bit 7 of `v`, the reserved bits kept. -/
def flags (p v : Byte) : Byte :=
  let z : Byte := if v = 0x00#8 then 1#8 else 0#8
  let n : Byte := if v.getLsbD 7 then 1#8 else 0#8
  (p &&& reservedMask) ||| (z <<< 1) ||| (n <<< 7)

/-- The flag unit applied to the affected value `v` (R31). -/
def State.updateFlags (v : Byte) (s : State) : State := { s with p := flags s.p v }

end Sys2Proof.Machine
end

