-- ==== Sys2Proof/Machine/Ops.lean ====
section
/-! DEFINITION. The named operations over memory and registers (20_memory.md R40-R45), the fetch
(43_halt_and_loop.md R125), and taking a fault (60_exceptions.md R141-R145). -/

namespace Sys2Proof.Machine

/-- The byte listed at a key, or 0x00 (R36). -/
def Memory.lookup : Memory → Nat → Byte
  | [], _ => 0x00#8
  | c :: m, k => if c.1 = k then c.2 else Memory.lookup m k

/-- Memory without the entries of a key. -/
def Memory.erase (m : Memory) (k : Nat) : Memory := m.filter (fun c => c.1 != k)

/-- An entry put before the first larger key. -/
def Memory.insert : Memory → Nat → Byte → Memory
  | [], k, v => [(k, v)]
  | c :: m, k, v => if k < c.1 then (k, v) :: c :: m else c :: Memory.insert m k v

/-- `read(addr)` (R40): never fails, changes nothing. -/
def Memory.read (m : Memory) (addr : Word) : Byte := m.lookup addr.toNat

/-- `write(addr, v)` (R41). Writing 0x00 removes the entry, which keeps the canonical form. -/
def Memory.write (m : Memory) (addr : Word) (v : Byte) : Memory :=
  if v = 0x00#8 then m.erase addr.toNat else (m.erase addr.toNat).insert addr.toNat v

/-- `read16(addr)` (R42): little-endian, the high byte at `addr + 1` modulo 2^16. -/
def Memory.read16 (m : Memory) (addr : Word) : Word :=
  joinBytes (m.read (addr + 1#16)) (m.read addr)

/-- `write16(addr, d)` (R43): low byte first, the high byte at `addr + 1` modulo 2^16. -/
def Memory.write16 (m : Memory) (addr d : Word) : Memory :=
  (m.write addr (loByte d)).write (addr + 1#16) (hiByte d)

/-- Bytes copied in order from an address up, each address modulo 2^16 (the copy of R56). -/
def Memory.writeBytes : Memory → Word → List Byte → Memory
  | m, _, [] => m
  | m, addr, b :: bs => Memory.writeBytes (m.write addr b) (addr + 1#16) bs

/-- The canonical form: addresses strictly rising and inside the address space, no zero byte listed. -/
def Memory.wf : Memory → Bool
  | [] => true
  | c :: m =>
    decide (c.1 < Config.memSize) && c.2 != 0x00#8 && m.all (fun d => decide (c.1 < d.1)) && Memory.wf m

/-- `R[r]` for the three 8-bit registers (R16, R19-R21). -/
def State.reg (r : Reg) (s : State) : Byte :=
  match r with
  | .a => s.a
  | .x => s.x
  | .y => s.y

/-- `R[r] <- v` for the three 8-bit registers (R16). -/
def State.setReg (r : Reg) (v : Byte) (s : State) : State :=
  match r with
  | .a => { s with a := v }
  | .x => { s with x := v }
  | .y => { s with y := v }

/-- `MemWrite(addr, 1, v)` on the state (R16, R41). -/
def State.store (addr : Word) (v : Byte) (s : State) : State := { s with mem := s.mem.write addr v }

/-- `pc` moved on by `n` bytes, modulo 2^16 (R25, R26). -/
def State.advancePc (n : Nat) (s : State) : State := { s with pc := s.pc + BitVec.ofNat 16 n }

/-- `pc` past an instruction of mode `m`: the fetch's 1 and the resolver's byte count (R25). -/
def State.pastInstr (m : AddrMode) (s : State) : State := s.advancePc (1 + m.byteCount)

/-- The bytes at `pc`, as many as the longest instruction has, each address modulo 2^16 (R60, R62;
log entry 16). -/
def State.fetchBytes (s : State) : List Byte :=
  [s.mem.read s.pc, s.mem.read (s.pc + 1#16), s.mem.read (s.pc + 2#16)]

/-- The instruction at `pc`, or none when its opcode byte has no catalog row (R125, R126). -/
def State.fetchInstr (s : State) : Option Instr := (decode s.fetchBytes).toInstr

/-- `raise`: the block becomes Faulted with the record, and nothing else is written (R16, R144). -/
def State.raise (f : Fault) (s : State) : State := { s with mode := .faulted, fault := some f }

/-- The decode fault of the byte at `pc`: the fetch has advanced `pc` by 1, the record holds the byte
and its address, nothing else is written (R126, R141). There is no handler and no return (R144, R145):
the way out is `applyReset` (HostOps.lean). -/
def State.takeDecodeFault (s : State) : State :=
  (s.advancePc 1).raise (.decodeFault (s.mem.read s.pc) s.pc)

/-- The code of a fault (R136). -/
def Fault.code : Fault → Nat
  | .decodeFault _ _ => 1
  | .resolutionFault _ _ _ => 2

end Sys2Proof.Machine
end

