-- ==== Sys2Proof/Machine/Halt.lean ====
section
/-! DEFINITION. Halt (43_halt_and_loop.md R123). -/

namespace Sys2Proof.Machine

open Host (Outcome)

/-- `halt`: the execution loop goes to Halted (R16, R123). -/
def State.toHalted (s : State) : State := { s with mode := .halted }

/-- BRK: `mode <- Halted`, with `pc` one past the halt byte; no register, flag or memory write (R123, C4). -/
def execHalt (s : State) : Outcome State Fault Refusal :=
  .next (s.pastInstr .implied).toHalted

end Sys2Proof.Machine
end

