-- ==== Sys2Proof/Machine/Params.lean ====
section
/-! DEFINITION. The parameter values this model takes: the defaults of 00_scope.md R14. -/

namespace Sys2Proof.Machine

/-- The defaults of R14: decisions D7 to D11 of spec/92_eei_decisions.md (log entries 1 to 4). -/
def params : Config.Params where
  storeSetsFlags := true
  resetClearsY := false
  indxHiWrap := .zeroPage
  indyHiWrap := .zeroPage
  relBase := .operandAddress
  relExt := .sign

end Sys2Proof.Machine
end

