-- ==== Sys2Proof/Machine/Operands.lean ====
section
/-! DEFINITION. The address resolver (00_scope.md R9, 40_addressing.md R78-R93): the effective address
of each of the thirteen modes, and `resolve`, which reads the operand bytes itself. -/

namespace Sys2Proof.Machine

open Sys2Proof.Config

/-- `zext_16` (R16, R63). -/
def zext (b : Byte) : Word := b.setWidth 16

/-- `sext_16` (R16, R63). -/
def sext (b : Byte) : Word := b.signExtend 16

/-- ZeroPage: the operand byte zero-extended (R82). -/
def eaZeroPage (b : Byte) : Word := zext b

/-- ZeroPage_X and ZeroPage_Y: the sum wraps at 8 bits, so it stays in page 0 (R83, R84). -/
def eaZeroPageIndexed (b index : Byte) : Word := zext (b + index)

/-- Relative, for the counter at the offset byte and the offset (R85). -/
def eaRelative (c : Params) (pc : Word) (o : Byte) : Word :=
  let base := match c.relBase with
    | .operandAddress => pc
    | .nextInstruction => pc + 1#16
  let offset := match c.relExt with
    | .sign => sext o
    | .zero => zext o
  base + offset

/-- Absolute: the operand word (R86). -/
def eaAbsolute (w : Word) : Word := w

/-- Absolute_X and Absolute_Y: a 16-bit wrapping sum (R87, R88). -/
def eaAbsoluteIndexed (w : Word) (index : Byte) : Word := w + zext index

/-- Indirect: the word at the operand word, by the general 16-bit rule (R89). -/
def eaIndirect (m : Memory) (q : Word) : Word := m.read16 q

/-- The word at a zero-page pointer; its high byte wraps within page 0 or not (R90, R91). -/
def pointerWord (h : HiWrap) (m : Memory) (ptr : Byte) : Word :=
  let hi := match h with
    | .zeroPage => m.read (zext (ptr + 1#8))
    | .linear => m.read (zext ptr + 1#16)
  joinBytes hi (m.read (zext ptr))

/-- Indirect_X: the word at the indexed zero-page pointer (R90). -/
def eaIndirectX (c : Params) (m : Memory) (b x : Byte) : Word := pointerWord c.indxHiWrap m (b + x)

/-- Indirect_Y: the word at the zero-page pointer, then indexed with a 16-bit wrap (R91). -/
def eaIndirectY (c : Params) (m : Memory) (b y : Byte) : Word :=
  pointerWord c.indyHiWrap m b + zext y

/-- The effective address of a mode with `pc` at the first operand byte (R79-R91). -/
def resolveEa (c : Params) (m : AddrMode) (pc : Word) (x y : Byte) (mem : Memory) : Option Word :=
  match m with
  | .implied => none
  | .accumulator => none
  | .immediate => some pc
  | .zeroPage => some (eaZeroPage (mem.read pc))
  | .zeroPageX => some (eaZeroPageIndexed (mem.read pc) x)
  | .zeroPageY => some (eaZeroPageIndexed (mem.read pc) y)
  | .relative => some (eaRelative c pc (mem.read pc))
  | .absolute => some (eaAbsolute (mem.read16 pc))
  | .absoluteX => some (eaAbsoluteIndexed (mem.read16 pc) x)
  | .absoluteY => some (eaAbsoluteIndexed (mem.read16 pc) y)
  | .indirect => some (eaIndirect mem (mem.read16 pc))
  | .indirectX => some (eaIndirectX c mem (mem.read pc) x)
  | .indirectY => some (eaIndirectY c mem (mem.read pc) y)

/-- `resolve(mode, pc, x, y, mem) -> (ea, pc')` (R9, R78, R92): writes nothing, advances the counter. -/
def resolve (c : Params) (m : AddrMode) (pc : Word) (x y : Byte) (mem : Memory) :
    Option Word × Word :=
  (resolveEa c m pc x y mem, pc + BitVec.ofNat 16 m.byteCount)

end Sys2Proof.Machine
end

