-- ==== Sys2Proof/Machine/Load.lean ====
section
/-! DEFINITION. The load family (41_load_store.md R94-R112). The effective address is computed from the
state before the instruction, then `pc` moves past it, then the byte is read and written (R161). -/

namespace Sys2Proof.Machine

open Host (Outcome)

/-- `R[r] <- v; p <- flags(p, v)`: the register write, then the flag write (R94, R161). -/
def loadValue (r : Reg) (v : Byte) (s : State) : State := (s.setReg r v).updateFlags v

/-- The load handler: `v <- MemRead(ea, 1)`, then the register and the flags (R94). -/
def loadAt (r : Reg) (ea : Word) (s : State) : State := loadValue r (s.mem.read ea) s

/-- LDA Immediate (R95: `v = imm`; log entry 10). -/
def execLoadAImmediate (imm : Byte) (s : State) : Outcome State Fault Refusal :=
  .next (loadValue .a imm (s.pastInstr .immediate))

/-- LDA ZeroPage (R96). -/
def execLoadAZeroPage (zp : Byte) (s : State) : Outcome State Fault Refusal :=
  .next (loadAt .a (eaZeroPage zp) (s.pastInstr .zeroPage))

/-- LDA ZeroPage_X (R97). -/
def execLoadAZeroPageX (zp : Byte) (s : State) : Outcome State Fault Refusal :=
  .next (loadAt .a (eaZeroPageIndexed zp s.x) (s.pastInstr .zeroPageX))

/-- LDA Absolute (R98). -/
def execLoadAAbsolute (abs : Word) (s : State) : Outcome State Fault Refusal :=
  .next (loadAt .a (eaAbsolute abs) (s.pastInstr .absolute))

/-- LDA Absolute_X (R99). -/
def execLoadAAbsoluteX (abs : Word) (s : State) : Outcome State Fault Refusal :=
  .next (loadAt .a (eaAbsoluteIndexed abs s.x) (s.pastInstr .absoluteX))

/-- LDA Absolute_Y (R100). -/
def execLoadAAbsoluteY (abs : Word) (s : State) : Outcome State Fault Refusal :=
  .next (loadAt .a (eaAbsoluteIndexed abs s.y) (s.pastInstr .absoluteY))

/-- LDA Indirect_X (R101; log entry 3). -/
def execLoadAIndirectX (zp : Byte) (s : State) : Outcome State Fault Refusal :=
  .next (loadAt .a (eaIndirectX params s.mem zp s.x) (s.pastInstr .indirectX))

/-- LDA Indirect_Y (R102; log entry 3). -/
def execLoadAIndirectY (zp : Byte) (s : State) : Outcome State Fault Refusal :=
  .next (loadAt .a (eaIndirectY params s.mem zp s.y) (s.pastInstr .indirectY))

/-- LDX Immediate (R103: `v = imm`; log entry 10). -/
def execLoadXImmediate (imm : Byte) (s : State) : Outcome State Fault Refusal :=
  .next (loadValue .x imm (s.pastInstr .immediate))

/-- LDX ZeroPage (R104). -/
def execLoadXZeroPage (zp : Byte) (s : State) : Outcome State Fault Refusal :=
  .next (loadAt .x (eaZeroPage zp) (s.pastInstr .zeroPage))

/-- LDX ZeroPage_Y (R105). -/
def execLoadXZeroPageY (zp : Byte) (s : State) : Outcome State Fault Refusal :=
  .next (loadAt .x (eaZeroPageIndexed zp s.y) (s.pastInstr .zeroPageY))

/-- LDX Absolute (R106). -/
def execLoadXAbsolute (abs : Word) (s : State) : Outcome State Fault Refusal :=
  .next (loadAt .x (eaAbsolute abs) (s.pastInstr .absolute))

/-- LDX Absolute_Y (R107). -/
def execLoadXAbsoluteY (abs : Word) (s : State) : Outcome State Fault Refusal :=
  .next (loadAt .x (eaAbsoluteIndexed abs s.y) (s.pastInstr .absoluteY))

/-- LDY Immediate (R108: `v = imm`; log entry 10). -/
def execLoadYImmediate (imm : Byte) (s : State) : Outcome State Fault Refusal :=
  .next (loadValue .y imm (s.pastInstr .immediate))

/-- LDY ZeroPage (R109). -/
def execLoadYZeroPage (zp : Byte) (s : State) : Outcome State Fault Refusal :=
  .next (loadAt .y (eaZeroPage zp) (s.pastInstr .zeroPage))

/-- LDY ZeroPage_X (R110). -/
def execLoadYZeroPageX (zp : Byte) (s : State) : Outcome State Fault Refusal :=
  .next (loadAt .y (eaZeroPageIndexed zp s.x) (s.pastInstr .zeroPageX))

/-- LDY Absolute (R111). -/
def execLoadYAbsolute (abs : Word) (s : State) : Outcome State Fault Refusal :=
  .next (loadAt .y (eaAbsolute abs) (s.pastInstr .absolute))

/-- LDY Absolute_X (R112). -/
def execLoadYAbsoluteX (abs : Word) (s : State) : Outcome State Fault Refusal :=
  .next (loadAt .y (eaAbsoluteIndexed abs s.x) (s.pastInstr .absoluteX))

end Sys2Proof.Machine
end

