-- ==== Sys2Proof/Machine/Store.lean ====
section
/-! DEFINITION. The store family (41_load_store.md R113-R120). The effective address is computed from
the state before the instruction, so a store over its own operand or pointer bytes does not move it
(R161). -/

namespace Sys2Proof.Machine

open Host (Outcome)

/-- The store handler: `MemWrite(ea, 1, a)`, then `p <- flags(p, a)` when STORE_SETS_FLAGS (R113;
log entry 1). -/
def storeA (c : Config.Params) (ea : Word) (s : State) : State :=
  let t := s.store ea s.a
  if c.storeSetsFlags then t.updateFlags s.a else t

/-- STA ZeroPage (R114). -/
def execStoreAZeroPage (zp : Byte) (s : State) : Outcome State Fault Refusal :=
  .next (storeA params (eaZeroPage zp) (s.pastInstr .zeroPage))

/-- STA ZeroPage_X (R115). -/
def execStoreAZeroPageX (zp : Byte) (s : State) : Outcome State Fault Refusal :=
  .next (storeA params (eaZeroPageIndexed zp s.x) (s.pastInstr .zeroPageX))

/-- STA Absolute (R116). -/
def execStoreAAbsolute (abs : Word) (s : State) : Outcome State Fault Refusal :=
  .next (storeA params (eaAbsolute abs) (s.pastInstr .absolute))

/-- STA Absolute_X (R117). -/
def execStoreAAbsoluteX (abs : Word) (s : State) : Outcome State Fault Refusal :=
  .next (storeA params (eaAbsoluteIndexed abs s.x) (s.pastInstr .absoluteX))

/-- STA Absolute_Y (R118). -/
def execStoreAAbsoluteY (abs : Word) (s : State) : Outcome State Fault Refusal :=
  .next (storeA params (eaAbsoluteIndexed abs s.y) (s.pastInstr .absoluteY))

/-- STA Indirect_X (R119; log entry 3). -/
def execStoreAIndirectX (zp : Byte) (s : State) : Outcome State Fault Refusal :=
  .next (storeA params (eaIndirectX params s.mem zp s.x) (s.pastInstr .indirectX))

/-- STA Indirect_Y (R120; log entry 3). -/
def execStoreAIndirectY (zp : Byte) (s : State) : Outcome State Fault Refusal :=
  .next (storeA params (eaIndirectY params s.mem zp s.y) (s.pastInstr .indirectY))

end Sys2Proof.Machine
end

