-- ==== Sys2Proof/Machine/Transfer.lean ====
section
/-! DEFINITION. TransferAtoX and IncrementX (42_transfer_increment.md R121, R122). -/

namespace Sys2Proof.Machine

open Host (Outcome)

/-- TAX: `v <- a; x <- v; p <- flags(p, v)` (R121). -/
def execTransferAtoX (s : State) : Outcome State Fault Refusal :=
  .next (loadValue .x s.a (s.pastInstr .implied))

/-- INX: `v <- x + 1` modulo 256; `x <- v; p <- flags(p, v)` (R122). -/
def execIncrementX (s : State) : Outcome State Fault Refusal :=
  .next (loadValue .x (s.x + 1#8) (s.pastInstr .implied))

end Sys2Proof.Machine
end

