-- ==== Sys2Proof/Machine/Dispatch.lean ====
section
/-! DEFINITION. One arm per row of the catalog, each one call of that instruction's meaning
(43_halt_and_loop.md R124: "The match has no wildcard arm"). -/

namespace Sys2Proof.Machine

def exec (i : Instr) (s : State) : Host.Outcome State Fault Refusal :=
  match i with
  | .halt => Sys2Proof.Machine.execHalt s
  | .loadAImmediate imm => Sys2Proof.Machine.execLoadAImmediate imm s
  | .loadAZeroPage zp => Sys2Proof.Machine.execLoadAZeroPage zp s
  | .loadAZeroPageX zp => Sys2Proof.Machine.execLoadAZeroPageX zp s
  | .loadAAbsolute abs => Sys2Proof.Machine.execLoadAAbsolute abs s
  | .loadAAbsoluteX abs => Sys2Proof.Machine.execLoadAAbsoluteX abs s
  | .loadAAbsoluteY abs => Sys2Proof.Machine.execLoadAAbsoluteY abs s
  | .loadAIndirectX zp => Sys2Proof.Machine.execLoadAIndirectX zp s
  | .loadAIndirectY zp => Sys2Proof.Machine.execLoadAIndirectY zp s
  | .loadXImmediate imm => Sys2Proof.Machine.execLoadXImmediate imm s
  | .loadXZeroPage zp => Sys2Proof.Machine.execLoadXZeroPage zp s
  | .loadXZeroPageY zp => Sys2Proof.Machine.execLoadXZeroPageY zp s
  | .loadXAbsolute abs => Sys2Proof.Machine.execLoadXAbsolute abs s
  | .loadXAbsoluteY abs => Sys2Proof.Machine.execLoadXAbsoluteY abs s
  | .loadYImmediate imm => Sys2Proof.Machine.execLoadYImmediate imm s
  | .loadYZeroPage zp => Sys2Proof.Machine.execLoadYZeroPage zp s
  | .loadYZeroPageX zp => Sys2Proof.Machine.execLoadYZeroPageX zp s
  | .loadYAbsolute abs => Sys2Proof.Machine.execLoadYAbsolute abs s
  | .loadYAbsoluteX abs => Sys2Proof.Machine.execLoadYAbsoluteX abs s
  | .storeAZeroPage zp => Sys2Proof.Machine.execStoreAZeroPage zp s
  | .storeAZeroPageX zp => Sys2Proof.Machine.execStoreAZeroPageX zp s
  | .storeAAbsolute abs => Sys2Proof.Machine.execStoreAAbsolute abs s
  | .storeAAbsoluteX abs => Sys2Proof.Machine.execStoreAAbsoluteX abs s
  | .storeAAbsoluteY abs => Sys2Proof.Machine.execStoreAAbsoluteY abs s
  | .storeAIndirectX zp => Sys2Proof.Machine.execStoreAIndirectX zp s
  | .storeAIndirectY zp => Sys2Proof.Machine.execStoreAIndirectY zp s
  | .transferAtoX => Sys2Proof.Machine.execTransferAtoX s
  | .incrementX => Sys2Proof.Machine.execIncrementX s

end Sys2Proof.Machine
end

