-- ==== Sys2Proof/Machine/Loop.lean ====
section
/-! DEFINITION. One step of the block in each state of the execution loop (43_halt_and_loop.md R124-R132). -/

namespace Sys2Proof.Machine

open Host (Outcome)

/-- A step of a Running block: fetch, decode, and execute or raise the decode fault (R124-R128). -/
def stepRunning (s : State) : Outcome State Fault Refusal :=
  match s.fetchInstr with
  | some i => exec i s
  | none => .next s.takeDecodeFault

/-- A step asked of a block that is not Running. A Faulted block takes no step and returns the recorded
fault again (R132); of any other the step is not defined (R124; log entry 7). -/
def stepStopped (s : State) : Outcome State Fault Refusal :=
  match s.mode, s.fault with
  | .faulted, some f => .fault f
  | m, _ => .refused (.notRunning m)

/-- The step by the execution loop's state (R129, R130). -/
def stepByMode (s : State) : Outcome State Fault Refusal :=
  match s.mode with
  | .running => stepRunning s
  | .halted => stepStopped s
  | .faulted => stepStopped s

/-- A state whose next step runs the bytes given: they stand at `pc` and the block is Running with no
fault (log entry 9). -/
def State.withBytesAtPc (bytes : List Byte) (s : State) : State :=
  { s with mem := s.mem.writeBytes s.pc bytes, mode := .running, fault := none }

end Sys2Proof.Machine
end

