-- ==== Sys2Proof/Machine/Step.lean ====
section
/-! DEFINITION. The step of the machine, and where the next instruction is fetched from. -/

namespace Sys2Proof.Machine

/-- One step of the block (R124). -/
def step (s : State) : Host.Outcome State Fault Refusal := stepByMode s

/-- `s` with an instruction word of the opcode table at `pc`, ready to run it (log entry 9). -/
def State.withFetchWord (s : State) (nbits w : Nat) : State := s.withBytesAtPc (wordBytes nbits w)

end Sys2Proof.Machine
end

