-- ==== Sys2Proof/Machine/Block.lean ====
section
/-! DEFINITION. The block as the spec draws it: the units of 00_scope.md R6-R12 as functions, and the
step of 43_halt_and_loop.md R124 for ANY catalog and ANY parameters (R14, R37, R66). `step` is the
decoded machine; the two are stated equal at the defaults. -/

namespace Sys2Proof.Machine

open Host (Outcome)
open Sys2Proof.Config

/-- fetch_unit (R6, R125): the opcode, its address, and the counter moved on by 1. -/
def fetch (pc : Word) (mem : Memory) : Byte × Word × Word := (mem.read pc, pc, pc + 1#16)

/-- What the alu returns (R10): at most one register write and one byte write, the value the flag
unit is applied to, and the halt signal. -/
structure AluOut where
  regWrite : Option (Reg × Byte)
  memWrite : Option (Word × Byte)
  flagValue : Option Byte
  halt : Bool
  deriving DecidableEq, Repr

/-- The alu's answer for a value put in a register and shown to the flag unit. -/
def AluOut.ofReg (r : Reg) (v : Byte) : AluOut :=
  { regWrite := some (r, v), memWrite := none, flagValue := some v, halt := false }

/-- alu (R10, R94, R113, R121-R123); none where the mnemonic needs an address and the mode gave none,
which is the resolution fault of R124 and R142. -/
def alu (c : Params) (mn : Mnemonic) (ea : Option Word) (a x : Byte) (mem : Memory) : Option AluOut :=
  match mn, ea with
  | .halt, _ => some { regWrite := none, memWrite := none, flagValue := none, halt := true }
  | .transferAtoX, _ => some (.ofReg .x a)
  | .incrementX, _ => some (.ofReg .x (x + 1#8))
  | .loadA, some e => some (.ofReg .a (mem.read e))
  | .loadX, some e => some (.ofReg .x (mem.read e))
  | .loadY, some e => some (.ofReg .y (mem.read e))
  | .storeA, some e =>
    some { regWrite := none, memWrite := some (e, a),
           flagValue := if c.storeSetsFlags then some a else none, halt := false }
  | .loadA, none => none
  | .loadX, none => none
  | .loadY, none => none
  | .storeA, none => none

/-- The writes of the execute phase in the order of R161: memory, register, flags; then the halt. -/
def commit (out : AluOut) (s : State) : State :=
  let s := match out.memWrite with
    | some (e, v) => s.store e v
    | none => s
  let s := match out.regWrite with
    | some (r, v) => s.setReg r v
    | none => s
  let s := match out.flagValue with
    | some v => s.updateFlags v
    | none => s
  if out.halt then s.toHalted else s

/-- The step of a Running block (R124): fetch, decode, resolve, execute. The catalog is one already
checked: the block reaches this through `blockOutcome` only. -/
def blockStep (c : Params) (cat : List OpcodeRecord) (s : State) : State :=
  match fetch s.pc s.mem with
  | (opcode, opAddr, pc1) =>
    match lookup cat opcode with
    | none => { s with pc := pc1 }.raise (.decodeFault opcode opAddr)
    | some r =>
      match resolve c r.mode pc1 s.x s.y s.mem with
      | (ea, pc2) =>
        match alu c r.mnemonic ea s.a s.x s.mem with
        | none => { s with pc := pc2 }.raise (.resolutionFault opcode opAddr r.mode)
        | some out => commit out { s with pc := pc2 }

/-- The catalog's check (R65): with a duplicate byte nothing is done, whatever the operation. -/
def withCatalog {α : Type} (cat : List OpcodeRecord) (o : Outcome α Fault Refusal) :
    Outcome α Fault Refusal :=
  if uniqueBytes cat then o else .refused .duplicateOpcode

/-- The block's answer to one step, of a checked catalog (R65, R124, R132). -/
def blockOutcome (c : Params) (cat : List OpcodeRecord) (s : State) : Outcome State Fault Refusal :=
  withCatalog cat <|
    match s.mode with
    | .running => .next (blockStep c cat s)
    | .halted => stepStopped s
    | .faulted => stepStopped s

end Sys2Proof.Machine
end

