-- ==== Sys2Proof/Machine/HostOps.lean ====
section
/-! DEFINITION. The host's operations (00_scope.md R13): `new`, `reset`, `load`, `run`, `run_bounded`,
`load_and_run` and the accessors. They act between steps, never inside one (R52, R158). Every operation
that takes steps checks the catalog before the first and refuses one with a duplicate byte (R65). -/

namespace Sys2Proof.Machine

open Host (Outcome)
open Sys2Proof.Config

/-- `new()` (R153): everything zero, the loop Halted, no fault. -/
def newInstance : State where
  pc := 0x0000#16
  a := 0x00#8
  x := 0x00#8
  y := 0x00#8
  p := 0x00#8
  mem := []
  mode := .halted
  fault := none

/-- `reset()` (R154, R155): `pc` from the vector as memory stands, `a`, `x` and all of `p` zero, `y` by
RESET_CLEARS_Y (log entry 2), Running, the fault record cleared; memory unchanged. -/
def applyReset (c : Params) (s : State) : State :=
  { pc := s.mem.read16 resetVector
    a := 0x00#8
    x := 0x00#8
    y := if c.resetClearsY then 0x00#8 else s.y
    p := 0x00#8
    mem := s.mem
    mode := .running
    fault := none }

/-- `load(bytes, origin)` (R56-R58): the copy, then the vector; refused past the top of memory (R57). -/
def load (bytes : List Byte) (s : State) (origin : Word := loadOrigin) :
    Outcome State Fault Refusal :=
  if origin.toNat + bytes.length ≤ memSize then
    .next { s with mem := (s.mem.writeBytes origin bytes).write16 resetVector origin }
  else .refused (.loadPastTop origin bytes.length)

/-- How a bounded run comes back (R131, R133). -/
inductive RunEnd where
  /-- A Halt executed. -/
  | halted
  /-- A fault ended the run; the recorded fault. -/
  | faulted (f : Option Fault)
  /-- The bound was used up with the block still Running: no halt, no fault, no end of the run. -/
  | outOfFuel
  deriving DecidableEq, Repr

/-- The loop of R131 with at most `n` steps, each a step of the block (R65, R124). -/
def runLoop (c : Params) (cat : List OpcodeRecord) : Nat → State → Outcome (State × RunEnd) Fault Refusal
  | 0, s => .next (s, .outOfFuel)
  | n + 1, s =>
    match blockOutcome c cat s with
    | .next t =>
      match t.mode with
      | .running => runLoop c cat n t
      | .halted => .next (t, .halted)
      | .faulted => .next (t, .faulted t.fault)
    | .fault f => .fault f
    | .refused r => .refused r

/-- `run_bounded(S, n)` (R131-R133): no step in Faulted; else Running, then at most `n` steps. The
catalog is checked first, whatever the bound and the mode (R65). -/
def runBounded (c : Params) (cat : List OpcodeRecord) (n : Nat) (s : State) :
    Outcome (State × RunEnd) Fault Refusal :=
  withCatalog cat <|
    match s.mode with
    | .faulted => .next (s, .faulted s.fault)
    | .halted => runLoop c cat n { s with mode := .running }
    | .running => runLoop c cat n { s with mode := .running }

/-- `run()` ends in `t` with `e` (R131, R134): some bound is enough, and running out of it is no end. A
refused catalog gives no run, so no end (R65). -/
def RunEnds (c : Params) (cat : List OpcodeRecord) (s t : State) (e : RunEnd) : Prop :=
  e ≠ .outOfFuel ∧ ∃ n, runBounded c cat n s = .next (t, e)

/-- `load_and_run(bytes)` with at most `n` steps (R157): load at 0x8000, reset, run. The catalog is
checked before the load (R65). -/
def loadAndRunBounded (c : Params) (cat : List OpcodeRecord) (n : Nat) (bytes : List Byte)
    (s : State) : Outcome (State × RunEnd) Fault Refusal :=
  withCatalog cat <|
    match load bytes s with
    | .next t => runBounded c cat n (applyReset c t)
    | .fault f => .fault f
    | .refused r => .refused r

/-- The host writes a memory byte (R158). -/
def hostWrite (addr : Word) (v : Byte) (s : State) : State := s.store addr v

/-- The host writes a memory word (R43, R158). -/
def hostWrite16 (addr d : Word) (s : State) : State := { s with mem := s.mem.write16 addr d }

/-- The host writes `a`, `x` or `y` (R158). -/
def hostWriteReg (r : Reg) (v : Byte) (s : State) : State := s.setReg r v

/-- The host writes `pc` (R158). -/
def hostWritePc (v : Word) (s : State) : State := { s with pc := v }

/-- The host writes `p`, all eight bits: the only way a reserved bit becomes 1 (R30, R158). -/
def hostWriteP (v : Byte) (s : State) : State := { s with p := v }

end Sys2Proof.Machine
end

