-- ==== Sys2Proof/Safety.lean ====
section
/-! DEFINITION. The terms claims are stated in: what a load, a store and the flag unit do to a state
(their frame included), and the invariant that every step keeps. -/

namespace Sys2Proof.Machine

/-- The status byte `p'` after the flag unit saw `v` with `p` before: Z iff `v` is zero, N is bit 7 of
`v`, every other bit as before (10_state.md R27-R31). -/
structure FlagsFrom (v p p' : Byte) : Prop where
  zero : zFlag p' = decide (v = 0x00#8)
  negative : nFlag p' = v.getLsbD 7
  rest : ∀ k, k ≠ 1 → k ≠ 7 → p'.getLsbD k = p.getLsbD k

/-- `v` put into register `r` by an instruction of `len` bytes, from `s` to `t`, and nothing else
(41_load_store.md R94, 42_transfer_increment.md R121, R122). -/
structure LoadEffect (r : Reg) (v : Byte) (len : Nat) (s t : State) : Prop where
  pc : t.pc = s.pc + BitVec.ofNat 16 len
  dest : t.reg r = v
  others : ∀ q, q ≠ r → t.reg q = s.reg q
  flags : FlagsFrom v s.p t.p
  mem : ∀ b, t.mem.read b = s.mem.read b
  mode : t.mode = s.mode
  fault : t.fault = s.fault

/-- The accumulator stored at `ea` by an instruction of `len` bytes, from `s` to `t`, with Z and N from
it (STORE_SETS_FLAGS true; log entry 1), and nothing else (41_load_store.md R113). -/
structure StoreEffect (ea : Word) (len : Nat) (s t : State) : Prop where
  pc : t.pc = s.pc + BitVec.ofNat 16 len
  stored : t.mem.read ea = s.a
  elsewhere : ∀ b, b ≠ ea → t.mem.read b = s.mem.read b
  regs : ∀ q, t.reg q = s.reg q
  flags : FlagsFrom s.a s.p t.p
  mode : t.mode = s.mode
  fault : t.fault = s.fault

/-- The 8-bit register an instruction of this mnemonic writes (10_state.md R23). -/
def destReg : Mnemonic → Option Reg
  | .loadA => some .a
  | .loadX => some .x
  | .loadY => some .y
  | .transferAtoX => some .x
  | .incrementX => some .x
  | .halt => none
  | .storeA => none

/-- What holds from reset on, at every step: memory in its canonical form (R36), a fault record exactly
in Faulted (R35), the reserved status bits 0 (R30), Z and N never both 1 (R31). -/
structure State.Inv (s : State) : Prop where
  mem : s.mem.wf = true
  fault : s.fault.isSome = true ↔ s.mode = .faulted
  reserved : s.p &&& 0x7D#8 = 0x00#8
  zeroOrNegative : ¬(zFlag s.p = true ∧ nFlag s.p = true)

end Sys2Proof.Machine
end

