-- ==== Sys2Proof/Certificates/Slice0/Obligations.lean ====
section
/-! DEFINITION. The statements for the provers. Each docstring names the rule of spec/ it formalises. Where
a clause rests on a decision of the spec or a choice of the model, the docstring names the log entry, and
the statement's basis is derived. -/

open Sys2Proof Sys2Proof.Machine Sys2Proof.Config

/-! ## Encoding and the step -/

/-- R124, R126, R127: a Running block whose bytes at `pc` decode to an instruction steps as that
instruction's meaning; the step adds nothing around it. -/
def Obligations.StepRunsDecodedInstruction : Prop :=
  ∀ (s : State) (i : Instr) (rest : List Byte), s.mode = .running →
    decode s.fetchBytes = .ok i rest → i.wf = true → step s = exec i s

/-- R6-R12, R124: the decoded machine and the block drawn from its units (fetch, decode, resolve,
execute) answer alike in every state, at the default catalog and parameters (log entries 1 to 5). -/
def Obligations.StepMatchesBlockUnits : Prop :=
  ∀ s : State, step s = blockOutcome params catalog s

/-- R59-R61, R66-R70: decoding an encoded instruction gives it back, and the bytes after it, for every
operand. -/
def Obligations.DecodeOfEncode : Prop :=
  ∀ (i : Instr) (rest : List Byte), decode (encode i ++ rest) = .ok i rest

/-- R59-R61, R65: a decoded list of bytes is the instruction's own encoding and the rest, so no two byte
strings decode alike and no bit is dropped. -/
def Obligations.EncodeOfDecode : Prop :=
  ∀ (bytes : List Byte) (i : Instr) (rest : List Byte),
    decode bytes = .ok i rest → encode i ++ rest = bytes

/-- R66, R72: the decoder rejects a byte exactly when it is none of the 28 (log entry 5), whatever
follows it. -/
def Obligations.DecoderRejectsUnlistedBytes : Prop :=
  ∀ (opcode lo hi : Byte) (rest : List Byte),
    decode (opcode :: lo :: hi :: rest) = .illegalOpcode opcode ↔
      opcode ∉ ([0x00, 0xA9, 0xA5, 0xB5, 0xAD, 0xBD, 0xB9, 0xA1, 0xB1, 0xA2, 0xA6, 0xB6, 0xAE, 0xBE,
        0xA0, 0xA4, 0xB4, 0xAC, 0xBC, 0x85, 0x95, 0x8D, 0x9D, 0x99, 0x81, 0x91, 0xAA, 0xE8] : List Byte)

/-- R60, R61, R67-R70: words written out from the spec's encodings, one or two per family (log entry 5). -/
def Obligations.SpecWordsDecode : Prop :=
  decodeTableWord 8 0x00 = some .halt ∧
  decodeTableWord 16 0x05A9 = some (.loadAImmediate 0x05#8) ∧
  decodeTableWord 24 0x12F0B9 = some (.loadAAbsoluteY 0x12F0#16) ∧
  decodeTableWord 16 0x20B6 = some (.loadXZeroPageY 0x20#8) ∧
  decodeTableWord 24 0xFFF0BC = some (.loadYAbsoluteX 0xFFF0#16) ∧
  decodeTableWord 16 0x5091 = some (.storeAIndirectY 0x50#8) ∧
  decodeTableWord 24 0x80058D = some (.storeAAbsolute 0x8005#16) ∧
  decodeTableWord 8 0xAA = some .transferAtoX ∧
  decodeTableWord 8 0xE8 = some .incrementX ∧
  decodeTableWord 16 0x0089 = none

/-- R60-R62, R66-R70, R125: in a Running block the byte at `pc` selects the instruction, and its operand is
the byte, or the little-endian word, after it, addresses wrapping at 16 bits (log entry 5). -/
def Obligations.OpcodeByteSelectsInstruction : Prop :=
  ∀ s : State, s.mode = .running →
    let op := s.mem.read s.pc
    let b := s.mem.read (s.pc + 1#16)
    let w := joinBytes (s.mem.read (s.pc + 2#16)) b
    (op = 0x00#8 → step s = exec .halt s) ∧
    (op = 0xA9#8 → step s = exec (.loadAImmediate b) s) ∧
    (op = 0xA5#8 → step s = exec (.loadAZeroPage b) s) ∧
    (op = 0xB5#8 → step s = exec (.loadAZeroPageX b) s) ∧
    (op = 0xAD#8 → step s = exec (.loadAAbsolute w) s) ∧
    (op = 0xBD#8 → step s = exec (.loadAAbsoluteX w) s) ∧
    (op = 0xB9#8 → step s = exec (.loadAAbsoluteY w) s) ∧
    (op = 0xA1#8 → step s = exec (.loadAIndirectX b) s) ∧
    (op = 0xB1#8 → step s = exec (.loadAIndirectY b) s) ∧
    (op = 0xA2#8 → step s = exec (.loadXImmediate b) s) ∧
    (op = 0xA6#8 → step s = exec (.loadXZeroPage b) s) ∧
    (op = 0xB6#8 → step s = exec (.loadXZeroPageY b) s) ∧
    (op = 0xAE#8 → step s = exec (.loadXAbsolute w) s) ∧
    (op = 0xBE#8 → step s = exec (.loadXAbsoluteY w) s) ∧
    (op = 0xA0#8 → step s = exec (.loadYImmediate b) s) ∧
    (op = 0xA4#8 → step s = exec (.loadYZeroPage b) s) ∧
    (op = 0xB4#8 → step s = exec (.loadYZeroPageX b) s) ∧
    (op = 0xAC#8 → step s = exec (.loadYAbsolute w) s) ∧
    (op = 0xBC#8 → step s = exec (.loadYAbsoluteX w) s) ∧
    (op = 0x85#8 → step s = exec (.storeAZeroPage b) s) ∧
    (op = 0x95#8 → step s = exec (.storeAZeroPageX b) s) ∧
    (op = 0x8D#8 → step s = exec (.storeAAbsolute w) s) ∧
    (op = 0x9D#8 → step s = exec (.storeAAbsoluteX w) s) ∧
    (op = 0x99#8 → step s = exec (.storeAAbsoluteY w) s) ∧
    (op = 0x81#8 → step s = exec (.storeAIndirectX b) s) ∧
    (op = 0x91#8 → step s = exec (.storeAIndirectY b) s) ∧
    (op = 0xAA#8 → step s = exec .transferAtoX s) ∧
    (op = 0xE8#8 → step s = exec .incrementX s)

/-- R62, R26: an Absolute load whose opcode stands at 0xFFFF takes its operand from 0x0000 and 0x0001, and
leaves `pc` at 0x0002. -/
def Obligations.OperandsWrapPastTopOfMemory : Prop :=
  ∀ s : State, s.mode = .running → s.pc = 0xFFFF#16 → s.mem.read 0xFFFF#16 = 0xAD#8 →
    ∃ t, step s = .next t ∧ t.pc = 0x0002#16 ∧
      t.a = s.mem.read (joinBytes (s.mem.read 0x0001#16) (s.mem.read 0x0000#16))

/-! ## Results, frames and completion, one per family -/

/-- R95 whole: LDA Immediate is the bytes A9 imm; executed it puts `imm`, the byte after the opcode, in `a`
and Z and N from it, whatever the address of the opcode, and changes nothing else but `pc`. -/
def Obligations.LoadAImmediateRule : Prop :=
  (∀ imm : Byte, encode (.loadAImmediate imm) = [0xA9#8, imm]) ∧
  (∀ (imm : Byte) (s : State), ∃ t, exec (.loadAImmediate imm) s = .next t ∧ LoadEffect .a imm 2 s t) ∧
  (∀ s : State, s.mode = .running → s.mem.read s.pc = 0xA9#8 →
    ∃ t, step s = .next t ∧ LoadEffect .a (s.mem.read (s.pc + 1#16)) 2 s t)

/-- R94, R96-R100: the LoadA forms whose address comes from the operand and an index. Each completes from
every state. -/
def Obligations.LoadADirectForms : Prop :=
  ∀ s : State,
    (∀ zp, ∃ t, exec (.loadAZeroPage zp) s = .next t ∧
      LoadEffect .a (s.mem.read (eaZeroPage zp)) 2 s t) ∧
    (∀ zp, ∃ t, exec (.loadAZeroPageX zp) s = .next t ∧
      LoadEffect .a (s.mem.read (eaZeroPageIndexed zp s.x)) 2 s t) ∧
    (∀ w, ∃ t, exec (.loadAAbsolute w) s = .next t ∧
      LoadEffect .a (s.mem.read (eaAbsolute w)) 3 s t) ∧
    (∀ w, ∃ t, exec (.loadAAbsoluteX w) s = .next t ∧
      LoadEffect .a (s.mem.read (eaAbsoluteIndexed w s.x)) 3 s t) ∧
    (∀ w, ∃ t, exec (.loadAAbsoluteY w) s = .next t ∧
      LoadEffect .a (s.mem.read (eaAbsoluteIndexed w s.y)) 3 s t)

/-- R94, R101, R102: the LoadA forms through a zero-page pointer, whose high byte wraps within page 0
(decisions D9 and D10; log entry 3). -/
def Obligations.LoadAIndirectForms : Prop :=
  ∀ s : State,
    (∀ zp, ∃ t, exec (.loadAIndirectX zp) s = .next t ∧
      LoadEffect .a (s.mem.read (joinBytes (s.mem.read (zext (zp + s.x + 1#8)))
        (s.mem.read (zext (zp + s.x))))) 2 s t) ∧
    (∀ zp, ∃ t, exec (.loadAIndirectY zp) s = .next t ∧
      LoadEffect .a (s.mem.read (joinBytes (s.mem.read (zext (zp + 1#8)))
        (s.mem.read (zext zp)) + zext s.y)) 2 s t)

/-- R94, R103-R107: every form of LoadX, indexed by `y` (decision D5; log entry 5). -/
def Obligations.LoadXForms : Prop :=
  ∀ s : State,
    (∀ imm, ∃ t, exec (.loadXImmediate imm) s = .next t ∧ LoadEffect .x imm 2 s t) ∧
    (∀ zp, ∃ t, exec (.loadXZeroPage zp) s = .next t ∧
      LoadEffect .x (s.mem.read (eaZeroPage zp)) 2 s t) ∧
    (∀ zp, ∃ t, exec (.loadXZeroPageY zp) s = .next t ∧
      LoadEffect .x (s.mem.read (eaZeroPageIndexed zp s.y)) 2 s t) ∧
    (∀ w, ∃ t, exec (.loadXAbsolute w) s = .next t ∧
      LoadEffect .x (s.mem.read (eaAbsolute w)) 3 s t) ∧
    (∀ w, ∃ t, exec (.loadXAbsoluteY w) s = .next t ∧
      LoadEffect .x (s.mem.read (eaAbsoluteIndexed w s.y)) 3 s t)

/-- R94, R108-R112: every form of LoadY, indexed by `x` (decision D5; log entry 5). -/
def Obligations.LoadYForms : Prop :=
  ∀ s : State,
    (∀ imm, ∃ t, exec (.loadYImmediate imm) s = .next t ∧ LoadEffect .y imm 2 s t) ∧
    (∀ zp, ∃ t, exec (.loadYZeroPage zp) s = .next t ∧
      LoadEffect .y (s.mem.read (eaZeroPage zp)) 2 s t) ∧
    (∀ zp, ∃ t, exec (.loadYZeroPageX zp) s = .next t ∧
      LoadEffect .y (s.mem.read (eaZeroPageIndexed zp s.x)) 2 s t) ∧
    (∀ w, ∃ t, exec (.loadYAbsolute w) s = .next t ∧
      LoadEffect .y (s.mem.read (eaAbsolute w)) 3 s t) ∧
    (∀ w, ∃ t, exec (.loadYAbsoluteX w) s = .next t ∧
      LoadEffect .y (s.mem.read (eaAbsoluteIndexed w s.x)) 3 s t)

/-- R113-R118: the StoreA forms whose address comes from the operand and an index, with Z and N from the
stored value (decision D7; log entry 1). -/
def Obligations.StoreADirectForms : Prop :=
  ∀ s : State,
    (∀ zp, ∃ t, exec (.storeAZeroPage zp) s = .next t ∧ StoreEffect (eaZeroPage zp) 2 s t) ∧
    (∀ zp, ∃ t, exec (.storeAZeroPageX zp) s = .next t ∧
      StoreEffect (eaZeroPageIndexed zp s.x) 2 s t) ∧
    (∀ w, ∃ t, exec (.storeAAbsolute w) s = .next t ∧ StoreEffect (eaAbsolute w) 3 s t) ∧
    (∀ w, ∃ t, exec (.storeAAbsoluteX w) s = .next t ∧
      StoreEffect (eaAbsoluteIndexed w s.x) 3 s t) ∧
    (∀ w, ∃ t, exec (.storeAAbsoluteY w) s = .next t ∧
      StoreEffect (eaAbsoluteIndexed w s.y) 3 s t)

/-- R113, R119, R120: the StoreA forms through a zero-page pointer read before the store, whose high byte
wraps within page 0 (decisions D7, D9 and D10; log entries 1 and 3). -/
def Obligations.StoreAIndirectForms : Prop :=
  ∀ s : State,
    (∀ zp, ∃ t, exec (.storeAIndirectX zp) s = .next t ∧
      StoreEffect (joinBytes (s.mem.read (zext (zp + s.x + 1#8))) (s.mem.read (zext (zp + s.x)))) 2 s t) ∧
    (∀ zp, ∃ t, exec (.storeAIndirectY zp) s = .next t ∧
      StoreEffect (joinBytes (s.mem.read (zext (zp + 1#8))) (s.mem.read (zext zp)) + zext s.y) 2 s t)

/-- R121 whole: TAX is the byte AA; it copies `a` into `x`, Z and N from it, and changes nothing else but
`pc`. -/
def Obligations.TransferAtoXRule : Prop :=
  encode .transferAtoX = [0xAA#8] ∧
  ∀ s : State, ∃ t, exec .transferAtoX s = .next t ∧ LoadEffect .x s.a 1 s t

/-- R122 whole: INX is the byte E8; `x` becomes `(x + 1) mod 256`, Z and N from it, no other flag, register
or byte changes, and it never faults. -/
def Obligations.IncrementXRule : Prop :=
  encode .incrementX = [0xE8#8] ∧
  ∀ s : State, ∃ t, exec .incrementX s = .next t ∧
    LoadEffect .x (BitVec.ofNat 8 ((s.x.toNat + 1) % 256)) 1 s t

/-- R123, C4: Halt is the byte 00; it goes to Halted with `pc` one past the byte (decision D6; log entry 5),
and writes no register, flag or memory. -/
def Obligations.HaltRule : Prop :=
  encode .halt = [0x00#8] ∧
  ∀ s : State, ∃ t, exec .halt s = .next t ∧ t.mode = .halted ∧ t.pc.toNat = (s.pc.toNat + 1) % 65536 ∧
    (∀ q, t.reg q = s.reg q) ∧ t.p = s.p ∧ t.fault = s.fault ∧ ∀ b, t.mem.read b = s.mem.read b

/-! ## Flags and the resolver -/

/-- R11, R31: the flag unit's function bit by bit; it never sets both flags, and agrees with the spec's
formula on every bit of the mask 0x7D. -/
def Obligations.FlagUnitRule : Prop :=
  ∀ p v : Byte,
    (flags p v).getLsbD 1 = (v == 0x00#8) ∧ (flags p v).getLsbD 7 = decide (128 ≤ v.toNat) ∧
    (∀ k, k ≠ 1 → k ≠ 7 → (flags p v).getLsbD k = p.getLsbD k) ∧
    flags p v &&& 0x82#8 ≠ 0x82#8

/-- R113: STORE_SETS_FLAGS as a parameter. A Running block at any StoreA byte leaves `p` alone when it is
false and sets Z and N from `a` when it is true; everything else the step leaves (memory, the registers,
`pc`, the mode and the fault record) is the same at either value (log entry 1). -/
def Obligations.StoreFlagsParameter : Prop :=
  ∀ (c : Params) (s : State),
    s.mem.read s.pc ∈ ([0x85, 0x95, 0x8D, 0x9D, 0x99, 0x81, 0x91] : List Byte) →
    (c.storeSetsFlags = false → (blockStep c catalog s).p = s.p) ∧
    (c.storeSetsFlags = true → FlagsFrom s.a s.p (blockStep c catalog s).p) ∧
    ∀ b : Bool, ∃ q, blockStep { c with storeSetsFlags := b } catalog s = { blockStep c catalog s with p := q }

/-- R79-R84, R86-R88: the effective address and the counter advance of the direct modes, in numbers:
page-0 sums modulo 256, absolute sums modulo 65536, words little-endian. -/
def Obligations.ResolverDirectModes : Prop :=
  ∀ (c : Params) (pc : Word) (x y : Byte) (mem : Memory),
    let b := (mem.read pc).toNat
    let w := b + 256 * (mem.read (pc + 1#16)).toNat
    let at_ (m : AddrMode) (ea n : Nat) :=
      resolve c m pc x y mem = (some (BitVec.ofNat 16 ea), BitVec.ofNat 16 (pc.toNat + n)) ∧ ea < 65536
    resolve c .implied pc x y mem = (none, pc) ∧
    resolve c .accumulator pc x y mem = (none, pc) ∧
    at_ .immediate pc.toNat 1 ∧
    at_ .zeroPage b 1 ∧
    at_ .zeroPageX ((b + x.toNat) % 256) 1 ∧
    at_ .zeroPageY ((b + y.toNat) % 256) 1 ∧
    at_ .absolute w 2 ∧
    at_ .absoluteX ((w + x.toNat) % 65536) 2 ∧
    at_ .absoluteY ((w + y.toNat) % 65536) 2

/-- R85, R89-R92: the effective address and the counter advance of the modes that go through a pointer, and
of Relative, under each value of their parameters (decisions D9 to D12; log entries 3 and 4), in numbers. -/
def Obligations.ResolverPointerModes : Prop :=
  ∀ (c : Params) (pc : Word) (x y : Byte) (mem : Memory),
    let rd (n : Nat) : Nat := (mem.read (BitVec.ofNat 16 n)).toNat
    let b := (mem.read pc).toNat
    let q := b + 256 * (mem.read (pc + 1#16)).toNat
    let px := (b + x.toNat) % 256
    let at_ (m : AddrMode) (ea n : Nat) :=
      resolve c m pc x y mem = (some (BitVec.ofNat 16 ea), BitVec.ofNat 16 (pc.toNat + n))
    at_ .indirect (rd q + 256 * rd (q + 1)) 2 ∧
    (c.indxHiWrap = .zeroPage → at_ .indirectX (rd px + 256 * rd ((px + 1) % 256)) 1) ∧
    (c.indxHiWrap = .linear → at_ .indirectX (rd px + 256 * rd (px + 1)) 1) ∧
    (c.indyHiWrap = .zeroPage → at_ .indirectY (rd b + 256 * rd ((b + 1) % 256) + y.toNat) 1) ∧
    (c.indyHiWrap = .linear → at_ .indirectY (rd b + 256 * rd (b + 1) + y.toNat) 1) ∧
    (c.relBase = .operandAddress → c.relExt = .sign → b < 128 → at_ .relative (pc.toNat + b) 1) ∧
    (c.relBase = .operandAddress → c.relExt = .sign → 128 ≤ b → at_ .relative (pc.toNat + b + 65280) 1) ∧
    (c.relBase = .operandAddress → c.relExt = .zero → at_ .relative (pc.toNat + b) 1) ∧
    (c.relBase = .nextInstruction → c.relExt = .sign → b < 128 → at_ .relative (pc.toNat + 1 + b) 1) ∧
    (c.relBase = .nextInstruction → c.relExt = .sign → 128 ≤ b →
      at_ .relative (pc.toNat + 1 + b + 65280) 1) ∧
    (c.relBase = .nextInstruction → c.relExt = .zero → at_ .relative (pc.toNat + 1 + b) 1)

/-! ## Memory -/

/-- R43 (with R42, R44): a 16-bit write puts the low byte at `a` and the high byte at `a + 1` modulo 2^16,
changes no other byte, and is read back whole, at 0xFFFF too. -/
def Obligations.WordWriteReadsBack : Prop :=
  ∀ (m : Memory) (a d : Word),
    (m.write16 a d).read16 a = d ∧
    (m.write16 a d).read a = BitVec.ofNat 8 (d.toNat % 256) ∧
    (m.write16 a d).read (a + 1#16) = BitVec.ofNat 8 (d.toNat / 256) ∧
    ∀ b, b ≠ a → b ≠ a + 1#16 → (m.write16 a d).read b = m.read b

/-- R36: memory is its 65536 bytes and nothing else: two memories in the canonical form that read alike
everywhere are equal data (log entry 15). -/
def Obligations.MemoryIsItsBytes : Prop :=
  ∀ m n : Memory, m.wf = true → n.wf = true → (∀ b, m.read b = n.read b) → m = n

/-! ## The whole machine -/

/-- R30, R31, R35, R36: every step keeps the invariant: canonical memory, a fault record exactly in Faulted,
reserved bits 0, Z and N never both 1. -/
def Obligations.StepKeepsInvariant : Prop :=
  ∀ s t : State, s.Inv → step s = .next t → t.Inv

/-- R18-R36, R153-R155: the state after reset meets the invariant, and is what `reset()` makes of a new
instance, at either value of RESET_CLEARS_Y (log entries 2 and 8). -/
def Obligations.ResetMeetsInvariant : Prop :=
  State.reset.Inv ∧ newInstance.Inv ∧ ∀ c : Params, applyReset c newInstance = State.reset

/-- R56, R153, R154, R158: the host's operations keep the invariant, but for a write of `p`, which does so
when it keeps the reserved bits 0 and does not set both flags. -/
def Obligations.HostOperationsKeepInvariant : Prop :=
  ∀ s : State, s.Inv →
    (∀ c, (applyReset c s).Inv) ∧
    (∀ bytes origin t, load bytes s origin = .next t → t.Inv) ∧
    (∀ a v, (hostWrite a v s).Inv) ∧ (∀ a d, (hostWrite16 a d s).Inv) ∧
    (∀ r v, (hostWriteReg r v s).Inv) ∧ (∀ v, (hostWritePc v s).Inv) ∧
    (∀ v : Byte, v ∈ ([0x00, 0x02, 0x80] : List Byte) ↔ (hostWriteP v s).Inv)

/-- R17, R93, R130, R138: a Running block always answers a next state; it is Halted exactly after the byte
00, Faulted exactly after a byte that is none of the 28, and Running after every other (log entries 5, 6). -/
def Obligations.RunningBlockAlwaysSteps : Prop :=
  ∀ s : State, s.mode = .running → ∃ t, step s = .next t ∧
    (t.mode = .halted ↔ s.mem.read s.pc = 0x00#8) ∧
    (t.mode = .faulted ↔ s.mem.read s.pc ∉
      ([0x00, 0xA9, 0xA5, 0xB5, 0xAD, 0xBD, 0xB9, 0xA1, 0xB1, 0xA2, 0xA6, 0xB6, 0xAE, 0xBE,
        0xA0, 0xA4, 0xB4, 0xAC, 0xBC, 0x85, 0x95, 0x8D, 0x9D, 0x99, 0x81, 0x91, 0xAA, 0xE8] : List Byte))

/-- R126, R141, R144 (decision D13; log entry 6): fetching a byte that is none of the 28 makes the block
Faulted with the byte and its address recorded and `pc` one past it; nothing else is written; the fault's
code is 1; and a run comes back with that record. -/
def Obligations.DecodeFaultRule : Prop :=
  ∀ s : State, s.mode = .running → s.mem.read s.pc ∉
      ([0x00, 0xA9, 0xA5, 0xB5, 0xAD, 0xBD, 0xB9, 0xA1, 0xB1, 0xA2, 0xA6, 0xB6, 0xAE, 0xBE,
        0xA0, 0xA4, 0xB4, 0xAC, 0xBC, 0x85, 0x95, 0x8D, 0x9D, 0x99, 0x81, 0x91, 0xAA, 0xE8] : List Byte) →
    let f : Fault := .decodeFault (s.mem.read s.pc) s.pc
    let t : State := { s with pc := s.pc + 1#16, mode := .faulted, fault := some f }
    step s = .next t ∧ f.code = 1 ∧ ∀ n, runBounded params catalog (n + 1) s = .next (t, .faulted (some f))

/-- R124, R132, R152 (log entry 7): outside Running there is no step. A Faulted block answers its recorded
fault and a run of it, with any catalog that is not refused (R65), changes nothing; of a Halted block a step
is refused by name. -/
def Obligations.StoppedBlockTakesNoStep : Prop :=
  ∀ s : State,
    (∀ f, s.mode = .faulted → s.fault = some f → step s = .fault f ∧
      ∀ c cat n, uniqueBytes cat = true → runBounded c cat n s = .next (s, .faulted (some f))) ∧
    (s.mode = .halted → step s = .refused (.notRunning .halted))

/-- R23: who writes what. In a step of a Running block `a` changes only under a LoadA byte, `x` only under
LoadX, TAX or INX, `y` only under LoadY, memory only under StoreA, `p` only under a byte of the catalog
other than Halt (log entries 1 and 5). -/
def Obligations.OnlyListedOpcodesWrite : Prop :=
  ∀ s t : State, s.mode = .running → step s = .next t →
    let op := s.mem.read s.pc
    let ldas : List Byte := [0xA9, 0xA5, 0xB5, 0xAD, 0xBD, 0xB9, 0xA1, 0xB1]
    let ldxs : List Byte := [0xA2, 0xA6, 0xB6, 0xAE, 0xBE]
    let ldys : List Byte := [0xA0, 0xA4, 0xB4, 0xAC, 0xBC]
    let stas : List Byte := [0x85, 0x95, 0x8D, 0x9D, 0x99, 0x81, 0x91]
    let regs : List Byte := [0xAA, 0xE8]
    (t.a ≠ s.a → op ∈ ldas) ∧ (t.x ≠ s.x → op ∈ ldxs ++ regs) ∧ (t.y ≠ s.y → op ∈ ldys) ∧
    (t.mem ≠ s.mem → op ∈ stas) ∧ (t.p ≠ s.p → op ∈ ldas ++ ldxs ++ ldys ++ stas ++ regs)

/-- R25, R26, R126: `pc` moves on by the instruction's length, 1, 2 or 3, modulo 65536, and by 1 at a byte
that is none of the 28; nothing else ever moves it (log entry 5). -/
def Obligations.CounterAdvancesByLength : Prop :=
  ∀ s t : State, s.mode = .running → step s = .next t →
    let op := s.mem.read s.pc
    let three : List Byte := [0xAD, 0xBD, 0xB9, 0xAE, 0xBE, 0xAC, 0xBC, 0x8D, 0x9D, 0x99]
    let two : List Byte := [0xA9, 0xA5, 0xB5, 0xA1, 0xB1, 0xA2, 0xA6, 0xB6, 0xA0, 0xA4, 0xB4,
      0x85, 0x95, 0x81, 0x91]
    t.pc.toNat = (s.pc.toNat + (if op ∈ three then 3 else if op ∈ two then 2 else 1)) % 65536

/-- R28, R29, R30: no instruction reads the status byte. Whatever `p` a Running block has, the step is the
same in everything else, and it does one of two things to `p`: it leaves it alone, or it keeps its reserved
bits and writes the same Z and N. Which of the two, and the Z and N written, do not depend on `p`. -/
def Obligations.StatusByteIsNeverRead : Prop :=
  ∀ s t : State, s.mode = .running → step s = .next t →
    (t.p = s.p ∧ ∀ q : Byte, step { s with p := q } = .next { t with p := q }) ∨
    (t.p &&& 0x7D#8 = s.p &&& 0x7D#8 ∧
      ∀ q : Byte, step { s with p := q } = .next { t with p := (q &&& 0x7D#8) ||| (t.p &&& 0x82#8) })

/-- R53, R161, R162: self-modifying code. A StoreA Absolute to the byte after itself is seen by the next
fetch: the instruction run next is the one whose opcode is the accumulator (log entry 5). -/
def Obligations.StoreIsSeenByNextFetch : Prop :=
  ∀ s : State, s.mode = .running → s.fetchInstr = some (.storeAAbsolute (s.pc + 3#16)) →
    ∃ t, step s = .next t ∧ t.pc = s.pc + 3#16 ∧ t.mode = .running ∧
      t.fetchInstr = (decode [s.a, s.mem.read (s.pc + 4#16), s.mem.read (s.pc + 5#16)]).toInstr

/-! ## Any catalog, any parameters -/

/-- R71, R93, R142: with a catalog whose rows are well formed no step of a Running block raises a
resolution fault, whatever the parameters. -/
def Obligations.WellFormedCatalogNeverResolutionFaults : Prop :=
  ∀ (c : Params) (cat : List OpcodeRecord) (s : State), cat.all OpcodeRecord.wf = true →
    s.fault = none → ∀ op a m, (blockStep c cat s).fault ≠ some (.resolutionFault op a m)

/-- R142 (decision D14; log entry 12): a row that gives an address-needing mnemonic a mode without one
faults at the step, with `pc` advanced by the fetch only and nothing else written; the code is 2. -/
def Obligations.IllFormedRowRaisesResolutionFault : Prop :=
  ∀ (c : Params) (cat : List OpcodeRecord) (s : State) (r : OpcodeRecord),
    lookup cat (s.mem.read s.pc) = some r → r.mnemonic.needsAddress = true → r.mode.givesAddress = false →
    let f : Fault := .resolutionFault (s.mem.read s.pc) s.pc r.mode
    blockStep c cat s = { s with pc := s.pc + 1#16, mode := .faulted, fault := some f } ∧ f.code = 2

/-- R65, R66: with unique bytes the lookup answers exactly the rows of the catalog, so decoding is a
function; a catalog with a duplicate is refused before any step, by one step, by a run, by `load_and_run`
(whatever the bound, the image and the state), and no run of it ends. -/
def Obligations.CatalogLookupIsUnique : Prop :=
  ∀ cat : List OpcodeRecord,
    (uniqueBytes cat = true → ∀ op r, lookup cat op = some r ↔ r ∈ cat ∧ r.hex = op) ∧
    (uniqueBytes cat = false → ∀ c s,
      blockOutcome c cat s = .refused .duplicateOpcode ∧
      (∀ n, runBounded c cat n s = .refused .duplicateOpcode) ∧
      (∀ n bytes, loadAndRunBounded c cat n bytes s = .refused .duplicateOpcode) ∧
      ∀ t e, ¬ RunEnds c cat s t e)

/-! ## The host's operations -/

/-- R56 whole: `load` copies the bytes verbatim from the origin, then writes the origin little-endian at
0xFFFC; it changes no register, mode or fault and no byte it does not name; the default origin is 0x8000. -/
def Obligations.LoadRule : Prop :=
  ∀ (bytes : List Byte) (s : State) (origin : Word), origin.toNat + bytes.length ≤ 65536 →
    ∃ t, load bytes s origin = .next t ∧ t = { s with mem := t.mem } ∧
      t.mem.read 0xFFFC#16 = BitVec.ofNat 8 (origin.toNat % 256) ∧
      t.mem.read 0xFFFD#16 = BitVec.ofNat 8 (origin.toNat / 256) ∧
      (∀ k b, bytes[k]? = some b → origin.toNat + k ≠ 0xFFFC → origin.toNat + k ≠ 0xFFFD →
        t.mem.read (BitVec.ofNat 16 (origin.toNat + k)) = b) ∧
      (∀ a : Word, a ≠ 0xFFFC#16 → a ≠ 0xFFFD#16 →
        (a.toNat < origin.toNat ∨ origin.toNat + bytes.length ≤ a.toNat) → t.mem.read a = s.mem.read a) ∧
      load bytes s = load bytes s 0x8000#16

/-- R57 (decision D16; log entry 11): a `load` past 0xFFFF is refused; it neither wraps nor truncates. -/
def Obligations.LoadPastTopIsRefused : Prop :=
  ∀ (bytes : List Byte) (s : State) (origin : Word), 65536 < origin.toNat + bytes.length →
    load bytes s origin = .refused (.loadPastTop origin bytes.length)

/-- R58, R155: `load` and then `reset()` enters at the origin, whatever the image, the state and the
parameters. -/
def Obligations.LoadThenResetEntersOrigin : Prop :=
  ∀ (c : Params) (bytes : List Byte) (s t : State) (origin : Word),
    load bytes s origin = .next t → (applyReset c t).pc = origin ∧ (applyReset c t).mode = .running

/-- R154, R156: what `reset()` writes and keeps, and that it is idempotent (decisions D8 and D15; log
entry 2). -/
def Obligations.ResetRule : Prop :=
  ∀ (c : Params) (s : State),
    let t := applyReset c s
    t.pc.toNat = (s.mem.read 0xFFFC#16).toNat + 256 * (s.mem.read 0xFFFD#16).toNat ∧
    t.a = 0x00#8 ∧ t.x = 0x00#8 ∧ t.p = 0x00#8 ∧ t.mem = s.mem ∧ t.mode = .running ∧ t.fault = none ∧
    (c.resetClearsY = false → t.y = s.y) ∧ (c.resetClearsY = true → t.y = 0x00#8) ∧
    applyReset c t = t

/-- R131: a run is the step repeated while Running, and comes back with the state after the first step
that is not. -/
def Obligations.RunFollowsStep : Prop :=
  ∀ (n : Nat) (s t : State), s.mode = .running → step s = .next t →
    (t.mode = .running → runBounded params catalog (n + 1) s = runBounded params catalog n t) ∧
    (t.mode = .halted → runBounded params catalog (n + 1) s = .next (t, .halted)) ∧
    (t.mode = .faulted → runBounded params catalog (n + 1) s = .next (t, .faulted t.fault))

/-- R133, R134: the end of a run does not depend on the bound: once some bound is enough, every larger one
gives the same state and outcome, so a run has at most one end. -/
def Obligations.RunEndIsUnique : Prop :=
  ∀ (c : Params) (cat : List OpcodeRecord) (s t t' : State) (e e' : RunEnd),
    RunEnds c cat s t e → RunEnds c cat s t' e' → t = t' ∧ e = e'

/-- R133: a run need not end. Where every byte of memory is TAX or INX, a Running block is still Running
after any number of steps. -/
def Obligations.RunMayNeverEnd : Prop :=
  ∀ s : State, s.mode = .running → (∀ b, s.mem.read b = 0xAA#8 ∨ s.mem.read b = 0xE8#8) →
    ∀ n, ∃ t, runBounded params catalog n s = .next (t, .outOfFuel) ∧ t.mode = .running ∧
      t.pc.toNat = (s.pc.toNat + n) % 65536
end

