-- ==== Sys2Proof/Laws/Decode.lean ====
section
/-! SUPPORT. The decoder row by row: what a lookup in the default catalog can answer, and what the decoder
then reads. -/

namespace Sys2Proof

/-- A row found is a row of the catalog, with the byte looked up. -/
theorem lookup_some {cat : List OpcodeRecord} {op : Byte} {r : OpcodeRecord} (h : lookup cat op = some r) :
    r ∈ cat ∧ r.hex = op :=
  ⟨List.mem_of_find?_eq_some h, by simpa using List.find?_some h⟩

/-- The encoder's opcode byte looks up a row of the instruction's own mnemonic and mode. -/
theorem lookup_opcode (i : Instr) :
    ∃ c, lookup catalog i.opcode = some ⟨i.opcode, i.mnemonic, c, i.mode⟩ := by
  cases i <;> exact ⟨_, rfl⟩

/-- An instruction is rebuilt from its mnemonic, mode and operand. -/
theorem ofShape_shape (i : Instr) : Instr.ofShape i.mnemonic i.mode i.operand = some i := by
  cases i <;> rfl

/-- An instruction built from a mnemonic, a mode and an operand has exactly those. -/
theorem ofShape_some {mn : Mnemonic} {m : AddrMode} {o : Operand} {i : Instr}
    (h : Instr.ofShape mn m o = some i) : i.mnemonic = mn ∧ i.mode = m ∧ i.operand = o := by
  cases mn <;> cases m <;> cases o <;> first | (cases h; done) | (cases h; exact ⟨rfl, rfl, rfl⟩)

/-- Every instruction is well formed. -/
theorem Instr.wf_true (i : Instr) : i.wf = true := by
  cases i <;> rfl

theorem fits_operand (i : Instr) : Operand.fits i.mode i.operand = true := by
  cases i <;> rfl

/-- An operand of the mode's width is taken back from its bytes. -/
theorem takeOperand_bytes {m : AddrMode} {o : Operand} (h : Operand.fits m o = true) (rest : List Byte) :
    takeOperand m (o.bytes ++ rest) = some (o, rest) := by
  unfold takeOperand
  cases o <;> simp only [Operand.fits, beq_iff_eq] at h <;> simp [h, Operand.bytes]

/-- An operand taken has the mode's width, and its bytes are the ones taken. -/
theorem takeOperand_some {m : AddrMode} {bytes rest : List Byte} {o : Operand}
    (h : takeOperand m bytes = some (o, rest)) :
    Operand.fits m o = true ∧ o.bytes ++ rest = bytes := by
  unfold takeOperand at h
  split at h
  · next hm => cases h; exact ⟨by simp [Operand.fits, hm], rfl⟩
  · next hm => cases h; exact ⟨by simp [Operand.fits, hm], rfl⟩
  · next hm => cases h; exact ⟨by simp [Operand.fits, hm], by simp [Operand.bytes]⟩
  · cases h

/-- The decoder once the row is known. -/
theorem decode_of_lookup {op : Byte} {r : OpcodeRecord} (h : lookup catalog op = some r) (rest : List Byte) :
    decode (op :: rest) = decodeRow r op rest := by
  simp only [decode, h]

/-- A byte with a row decodes, with any two bytes after it, to an instruction of the row's mnemonic and
mode. -/
theorem decode_of_row {op : Byte} {r : OpcodeRecord} (h : lookup catalog op = some r) (lo hi : Byte)
    (rest : List Byte) : ∃ i rest', decode (op :: lo :: hi :: rest) = .ok i rest' ∧
      i.mnemonic = r.mnemonic ∧ i.mode = r.mode ∧ i.opcode = op ∧
      i.operand = (match r.mode.byteCount with
        | 0 => .none
        | 1 => .byte lo
        | _ => .word (joinBytes hi lo)) := by
  obtain ⟨hm, rfl⟩ := lookup_some h
  rw [decode_of_lookup h]
  clear h
  simp only [catalog, List.mem_cons, List.not_mem_nil, or_false] at hm
  rcases hm with h | h | h | h | h | h | h | h | h | h | h | h | h | h | h | h | h | h | h | h | h | h | h |
    h | h | h | h | h <;> subst h <;> exact ⟨_, _, rfl, rfl, rfl, rfl, rfl⟩

end Sys2Proof
end

