-- ==== Sys2Proof/Laws/Flags.lean ====
section
/-! SUPPORT. What the flag unit does: one lemma on the bits, and its consequences. -/

namespace Sys2Proof.Machine

/-- Every bit of the flag unit's answer (10_state.md R31). -/
theorem flags_getLsbD (p v : Byte) (k : Nat) :
    (flags p v).getLsbD k =
      if k = 1 then decide (v = 0x00#8) else if k = 7 then v.getLsbD 7 else p.getLsbD k := by
  by_cases hk : k < 8
  · unfold flags
    by_cases hz : v = 0x00#8 <;> cases hn : v.getLsbD 7 <;> interval_cases k <;>
      simp_all [reservedMask]
  · simp [BitVec.getLsbD_of_ge _ _ (Nat.le_of_not_lt hk), show k ≠ 1 by omega, show k ≠ 7 by omega]

/-- The flag unit's answer is what `FlagsFrom` says. -/
theorem flagsFrom_flags (p v : Byte) : FlagsFrom v p (flags p v) where
  zero := by unfold zFlag; rw [flags_getLsbD, if_pos rfl]
  negative := by unfold nFlag; rw [flags_getLsbD, if_neg (by decide), if_pos rfl]
  rest k h1 h7 := by rw [flags_getLsbD, if_neg h1, if_neg h7]

/-- The flag unit in two parts: the reserved bits of the old status, and a Z and N that do not depend on
it (R28-R31). -/
theorem flags_eq_reserved_or (p q v : Byte) : flags q v = (q &&& 0x7D#8) ||| (flags p v &&& 0x82#8) := by
  apply BitVec.eq_of_getLsbD_eq
  intro k hk
  simp only [BitVec.getLsbD_or, BitVec.getLsbD_and, flags_getLsbD]
  have hk : k = 0 ∨ k = 1 ∨ k = 2 ∨ k = 3 ∨ k = 4 ∨ k = 5 ∨ k = 6 ∨ k = 7 := by omega
  rcases hk with h | h | h | h | h | h | h | h <;> subst h <;> simp

/-- The flag unit keeps the reserved bits (R30). -/
theorem flags_reserved (p v : Byte) : flags p v &&& 0x7D#8 = p &&& 0x7D#8 := by
  apply BitVec.eq_of_getLsbD_eq
  intro k hk
  rw [BitVec.getLsbD_and, BitVec.getLsbD_and, flags_getLsbD]
  by_cases h1 : k = 1
  · subst h1; simp
  · by_cases h7 : k = 7
    · subst h7; simp
    · simp [h1, h7]

/-- Z and N are never both 1 after the flag unit (R31). -/
theorem flags_not_both (p v : Byte) :
    ¬(zFlag (flags p v) = true ∧ nFlag (flags p v) = true) := by
  rintro ⟨hz, hn⟩
  rw [(flagsFrom_flags p v).zero, decide_eq_true_eq] at hz
  rw [(flagsFrom_flags p v).negative, hz] at hn
  exact absurd hn (by decide)

end Sys2Proof.Machine
end

