-- ==== Sys2Proof/Laws/State.lean ====
section
/-! SUPPORT. One lemma per field per update of State, true by unfolding the update once. -/

namespace Sys2Proof.Machine

@[simp] theorem State.updateFlags_pc (v : Byte) (s : State) : (s.updateFlags v).pc = s.pc := rfl
@[simp] theorem State.updateFlags_a (v : Byte) (s : State) : (s.updateFlags v).a = s.a := rfl
@[simp] theorem State.updateFlags_x (v : Byte) (s : State) : (s.updateFlags v).x = s.x := rfl
@[simp] theorem State.updateFlags_y (v : Byte) (s : State) : (s.updateFlags v).y = s.y := rfl
@[simp] theorem State.updateFlags_p (v : Byte) (s : State) : (s.updateFlags v).p = flags s.p v := rfl
@[simp] theorem State.updateFlags_mem (v : Byte) (s : State) : (s.updateFlags v).mem = s.mem := rfl
@[simp] theorem State.updateFlags_mode (v : Byte) (s : State) : (s.updateFlags v).mode = s.mode := rfl
@[simp] theorem State.updateFlags_fault (v : Byte) (s : State) : (s.updateFlags v).fault = s.fault := rfl

@[simp] theorem State.store_pc (b : Word) (v : Byte) (s : State) : (s.store b v).pc = s.pc := rfl
@[simp] theorem State.store_a (b : Word) (v : Byte) (s : State) : (s.store b v).a = s.a := rfl
@[simp] theorem State.store_x (b : Word) (v : Byte) (s : State) : (s.store b v).x = s.x := rfl
@[simp] theorem State.store_y (b : Word) (v : Byte) (s : State) : (s.store b v).y = s.y := rfl
@[simp] theorem State.store_p (b : Word) (v : Byte) (s : State) : (s.store b v).p = s.p := rfl
@[simp] theorem State.store_mem (b : Word) (v : Byte) (s : State) : (s.store b v).mem = s.mem.write b v := rfl
@[simp] theorem State.store_mode (b : Word) (v : Byte) (s : State) : (s.store b v).mode = s.mode := rfl
@[simp] theorem State.store_fault (b : Word) (v : Byte) (s : State) : (s.store b v).fault = s.fault := rfl

@[simp] theorem State.advancePc_pc (n : Nat) (s : State) : (s.advancePc n).pc = s.pc + BitVec.ofNat 16 n := rfl
@[simp] theorem State.advancePc_a (n : Nat) (s : State) : (s.advancePc n).a = s.a := rfl
@[simp] theorem State.advancePc_x (n : Nat) (s : State) : (s.advancePc n).x = s.x := rfl
@[simp] theorem State.advancePc_y (n : Nat) (s : State) : (s.advancePc n).y = s.y := rfl
@[simp] theorem State.advancePc_p (n : Nat) (s : State) : (s.advancePc n).p = s.p := rfl
@[simp] theorem State.advancePc_mem (n : Nat) (s : State) : (s.advancePc n).mem = s.mem := rfl
@[simp] theorem State.advancePc_mode (n : Nat) (s : State) : (s.advancePc n).mode = s.mode := rfl
@[simp] theorem State.advancePc_fault (n : Nat) (s : State) : (s.advancePc n).fault = s.fault := rfl

@[simp] theorem State.pastInstr_pc (m : AddrMode) (s : State) : (s.pastInstr m).pc = s.pc + BitVec.ofNat 16 (1 + m.byteCount) := rfl
@[simp] theorem State.pastInstr_a (m : AddrMode) (s : State) : (s.pastInstr m).a = s.a := rfl
@[simp] theorem State.pastInstr_x (m : AddrMode) (s : State) : (s.pastInstr m).x = s.x := rfl
@[simp] theorem State.pastInstr_y (m : AddrMode) (s : State) : (s.pastInstr m).y = s.y := rfl
@[simp] theorem State.pastInstr_p (m : AddrMode) (s : State) : (s.pastInstr m).p = s.p := rfl
@[simp] theorem State.pastInstr_mem (m : AddrMode) (s : State) : (s.pastInstr m).mem = s.mem := rfl
@[simp] theorem State.pastInstr_mode (m : AddrMode) (s : State) : (s.pastInstr m).mode = s.mode := rfl
@[simp] theorem State.pastInstr_fault (m : AddrMode) (s : State) : (s.pastInstr m).fault = s.fault := rfl

@[simp] theorem State.raise_pc (f : Fault) (s : State) : (s.raise f).pc = s.pc := rfl
@[simp] theorem State.raise_a (f : Fault) (s : State) : (s.raise f).a = s.a := rfl
@[simp] theorem State.raise_x (f : Fault) (s : State) : (s.raise f).x = s.x := rfl
@[simp] theorem State.raise_y (f : Fault) (s : State) : (s.raise f).y = s.y := rfl
@[simp] theorem State.raise_p (f : Fault) (s : State) : (s.raise f).p = s.p := rfl
@[simp] theorem State.raise_mem (f : Fault) (s : State) : (s.raise f).mem = s.mem := rfl
@[simp] theorem State.raise_mode (f : Fault) (s : State) : (s.raise f).mode = .faulted := rfl
@[simp] theorem State.raise_fault (f : Fault) (s : State) : (s.raise f).fault = some f := rfl

@[simp] theorem State.toHalted_pc (s : State) : (s.toHalted).pc = s.pc := rfl
@[simp] theorem State.toHalted_a (s : State) : (s.toHalted).a = s.a := rfl
@[simp] theorem State.toHalted_x (s : State) : (s.toHalted).x = s.x := rfl
@[simp] theorem State.toHalted_y (s : State) : (s.toHalted).y = s.y := rfl
@[simp] theorem State.toHalted_p (s : State) : (s.toHalted).p = s.p := rfl
@[simp] theorem State.toHalted_mem (s : State) : (s.toHalted).mem = s.mem := rfl
@[simp] theorem State.toHalted_mode (s : State) : (s.toHalted).mode = .halted := rfl
@[simp] theorem State.toHalted_fault (s : State) : (s.toHalted).fault = s.fault := rfl

@[simp] theorem State.takeDecodeFault_pc (s : State) : (s.takeDecodeFault).pc = s.pc + 1#16 := rfl
@[simp] theorem State.takeDecodeFault_a (s : State) : (s.takeDecodeFault).a = s.a := rfl
@[simp] theorem State.takeDecodeFault_x (s : State) : (s.takeDecodeFault).x = s.x := rfl
@[simp] theorem State.takeDecodeFault_y (s : State) : (s.takeDecodeFault).y = s.y := rfl
@[simp] theorem State.takeDecodeFault_p (s : State) : (s.takeDecodeFault).p = s.p := rfl
@[simp] theorem State.takeDecodeFault_mem (s : State) : (s.takeDecodeFault).mem = s.mem := rfl
@[simp] theorem State.takeDecodeFault_mode (s : State) : (s.takeDecodeFault).mode = .faulted := rfl
@[simp] theorem State.takeDecodeFault_fault (s : State) : (s.takeDecodeFault).fault = some (.decodeFault (s.mem.read s.pc) s.pc) := rfl

@[simp] theorem State.withBytesAtPc_pc (bytes : List Byte) (s : State) : (s.withBytesAtPc bytes).pc = s.pc := rfl
@[simp] theorem State.withBytesAtPc_a (bytes : List Byte) (s : State) : (s.withBytesAtPc bytes).a = s.a := rfl
@[simp] theorem State.withBytesAtPc_x (bytes : List Byte) (s : State) : (s.withBytesAtPc bytes).x = s.x := rfl
@[simp] theorem State.withBytesAtPc_y (bytes : List Byte) (s : State) : (s.withBytesAtPc bytes).y = s.y := rfl
@[simp] theorem State.withBytesAtPc_p (bytes : List Byte) (s : State) : (s.withBytesAtPc bytes).p = s.p := rfl
@[simp] theorem State.withBytesAtPc_mem (bytes : List Byte) (s : State) : (s.withBytesAtPc bytes).mem = s.mem.writeBytes s.pc bytes := rfl
@[simp] theorem State.withBytesAtPc_mode (bytes : List Byte) (s : State) : (s.withBytesAtPc bytes).mode = .running := rfl
@[simp] theorem State.withBytesAtPc_fault (bytes : List Byte) (s : State) : (s.withBytesAtPc bytes).fault = none := rfl

@[simp] theorem applyReset_pc (c : Config.Params) (s : State) : (applyReset c s).pc = s.mem.read16 Config.resetVector := rfl
@[simp] theorem applyReset_a (c : Config.Params) (s : State) : (applyReset c s).a = 0x00#8 := rfl
@[simp] theorem applyReset_x (c : Config.Params) (s : State) : (applyReset c s).x = 0x00#8 := rfl
@[simp] theorem applyReset_y (c : Config.Params) (s : State) : (applyReset c s).y = if c.resetClearsY then 0x00#8 else s.y := rfl
@[simp] theorem applyReset_p (c : Config.Params) (s : State) : (applyReset c s).p = 0x00#8 := rfl
@[simp] theorem applyReset_mem (c : Config.Params) (s : State) : (applyReset c s).mem = s.mem := rfl
@[simp] theorem applyReset_mode (c : Config.Params) (s : State) : (applyReset c s).mode = .running := rfl
@[simp] theorem applyReset_fault (c : Config.Params) (s : State) : (applyReset c s).fault = none := rfl

@[simp] theorem State.setReg_pc (r : Reg) (v : Byte) (s : State) : (s.setReg r v).pc = s.pc := by cases r <;> rfl
@[simp] theorem State.setReg_p (r : Reg) (v : Byte) (s : State) : (s.setReg r v).p = s.p := by cases r <;> rfl
@[simp] theorem State.setReg_mem (r : Reg) (v : Byte) (s : State) : (s.setReg r v).mem = s.mem := by cases r <;> rfl
@[simp] theorem State.setReg_mode (r : Reg) (v : Byte) (s : State) : (s.setReg r v).mode = s.mode := by cases r <;> rfl
@[simp] theorem State.setReg_fault (r : Reg) (v : Byte) (s : State) : (s.setReg r v).fault = s.fault := by cases r <;> rfl

@[simp] theorem State.reg_setReg_self (r : Reg) (v : Byte) (s : State) : (s.setReg r v).reg r = v := by
  cases r <;> rfl

theorem State.reg_setReg_other {r q : Reg} (h : q ≠ r) (v : Byte) (s : State) :
    (s.setReg r v).reg q = s.reg q := by
  cases r <;> cases q <;> first | rfl | exact absurd rfl h

/-- An update that leaves `a`, `x` and `y` alone leaves every register alone. -/
theorem State.reg_congr {s t : State} (ha : t.a = s.a) (hx : t.x = s.x) (hy : t.y = s.y) (q : Reg) :
    t.reg q = s.reg q := by
  cases q <;> assumption

@[simp] theorem State.reg_updateFlags (v : Byte) (s : State) (q : Reg) : (s.updateFlags v).reg q = s.reg q := by
  cases q <;> rfl

@[simp] theorem State.reg_pastInstr (m : AddrMode) (s : State) (q : Reg) : (s.pastInstr m).reg q = s.reg q := by
  cases q <;> rfl

end Sys2Proof.Machine
end

