-- ==== Sys2Proof/Laws/HostOps.lean ====
section
/-! SUPPORT. The catalog's check and the loop of a run, said once: what a checked block answers, and one
turn of the loop. -/

namespace Sys2Proof.Machine

open Host (Outcome)
open Sys2Proof.Config

/-- The default catalog meets R65. -/
@[simp] theorem uniqueBytes_catalog : uniqueBytes catalog = true := by decide

/-- A checked catalog lets the operation answer (R65). -/
theorem withCatalog_of_unique {α : Type} {cat : List OpcodeRecord} (h : uniqueBytes cat = true)
    (o : Outcome α Fault Refusal) : withCatalog cat o = o := if_pos h

/-- A duplicate byte refuses every operation (R65). -/
theorem withCatalog_of_duplicate {α : Type} {cat : List OpcodeRecord} (h : uniqueBytes cat = false)
    (o : Outcome α Fault Refusal) : withCatalog cat o = .refused .duplicateOpcode := by
  simp [withCatalog, h]

/-- An operation answers a next state only on a checked catalog (R65). -/
theorem withCatalog_eq_next_iff {α : Type} {cat : List OpcodeRecord} {o : Outcome α Fault Refusal} {v : α} :
    withCatalog cat o = .next v ↔ uniqueBytes cat = true ∧ o = .next v := by
  unfold withCatalog
  split <;> simp [*]

/-- A checked Running block answers its step (R124). -/
theorem blockOutcome_running {cat : List OpcodeRecord} (c : Params) (h : uniqueBytes cat = true) {s : State}
    (hm : s.mode = .running) : blockOutcome c cat s = .next (blockStep c cat s) := by
  rw [blockOutcome, withCatalog_of_unique h, hm]

/-- One turn of the loop from a Running block of a checked catalog (R131). -/
theorem runLoop_succ {cat : List OpcodeRecord} (c : Params) (h : uniqueBytes cat = true) (n : Nat) {s : State}
    (hm : s.mode = .running) :
    ((blockStep c cat s).mode = .running → runLoop c cat (n + 1) s = runLoop c cat n (blockStep c cat s)) ∧
    ((blockStep c cat s).mode = .halted → runLoop c cat (n + 1) s = .next (blockStep c cat s, .halted)) ∧
    ((blockStep c cat s).mode = .faulted →
      runLoop c cat (n + 1) s = .next (blockStep c cat s, .faulted (blockStep c cat s).fault)) := by
  simp only [runLoop, blockOutcome_running c h hm]
  refine ⟨fun ht => ?_, fun ht => ?_, fun ht => ?_⟩ <;> rw [ht]

/-- A run of a Running block is the loop from it, the catalog checked first (R65, R131). -/
theorem runBounded_running (c : Params) (cat : List OpcodeRecord) (n : Nat) {s : State}
    (hm : s.mode = .running) : runBounded c cat n s = withCatalog cat (runLoop c cat n s) := by
  have e : ({ s with mode := .running } : State) = s := by rw [← hm]
  simp only [runBounded, hm, e]

end Sys2Proof.Machine
end

