-- ==== Sys2Proof/Laws/Memory.lean ====
section
/-! SUPPORT. The laws of memory: read after write, the frame of a write, and that every memory
operation keeps the canonical form. None but the last group needs the form as a premise. -/

namespace Sys2Proof.Machine

theorem Memory.lookup_erase (m : Memory) (k j : Nat) :
    (m.erase k).lookup j = if j = k then 0x00#8 else m.lookup j := by
  induction m with
  | nil => simp [Memory.erase, Memory.lookup]
  | cons c m ih =>
    unfold Memory.erase at ih ⊢
    by_cases hc : c.1 = k
    · have : List.filter (fun c => c.1 != k) (c :: m) = List.filter (fun c => c.1 != k) m := by simp [hc]
      rw [this, ih]
      by_cases hj : j = k
      · simp [hj]
      · simp [hj, Memory.lookup, show c.1 ≠ j from fun h => hj (h.symm.trans hc)]
    · have : List.filter (fun c => c.1 != k) (c :: m) = c :: List.filter (fun c => c.1 != k) m := by simp [hc]
      rw [this]
      by_cases hj : c.1 = j
      · simp [Memory.lookup, hj, show j ≠ k from fun h => hc (hj.trans h)]
      · simp [Memory.lookup, hj, ih]

theorem Memory.lookup_insert (m : Memory) (k : Nat) (v : Byte) (j : Nat)
    (h : ∀ c ∈ m, c.1 ≠ k) : (m.insert k v).lookup j = if j = k then v else m.lookup j := by
  induction m with
  | nil =>
    by_cases hj : j = k
    · simp [Memory.insert, Memory.lookup, hj]
    · simp [Memory.insert, Memory.lookup, hj, Ne.symm hj]
  | cons c m ih =>
    unfold Memory.insert
    split
    · by_cases hj : j = k
      · simp [Memory.lookup, hj]
      · simp [Memory.lookup, hj, Ne.symm hj]
    · have hc : c.1 ≠ k := h c (by simp)
      have ih' := ih (fun d hd => h d (by simp [hd]))
      by_cases hj : c.1 = j
      · simp [Memory.lookup, hj, show j ≠ k from fun e => hc (hj.trans e)]
      · simp [Memory.lookup, hj, ih']

theorem Memory.not_mem_erase (m : Memory) (k : Nat) : ∀ c ∈ m.erase k, c.1 ≠ k := by
  intro c hc
  simpa using (List.mem_filter.mp hc).2

/-- Read after write, at the same address and at any other (20_memory.md R40, R41). -/
theorem Memory.read_write (m : Memory) (a : Word) (v : Byte) (b : Word) :
    (m.write a v).read b = if b = a then v else m.read b := by
  unfold Memory.read Memory.write
  split
  · next h => simp [Memory.lookup_erase, BitVec.toNat_inj, h]
  · rw [Memory.lookup_insert _ _ _ _ (Memory.not_mem_erase m _), Memory.lookup_erase]
    by_cases hb : b = a <;> simp [hb, BitVec.toNat_inj]

@[simp] theorem Memory.read_write_self (m : Memory) (a : Word) (v : Byte) : (m.write a v).read a = v := by
  simp [Memory.read_write]

theorem Memory.read_write_other (m : Memory) {a b : Word} (v : Byte) (h : b ≠ a) :
    (m.write a v).read b = m.read b := by
  simp [Memory.read_write, h]

@[simp] theorem Memory.read_nil (b : Word) : Memory.read [] b = 0x00#8 := rfl

/-- Bytes copied elsewhere leave an address alone. -/
theorem Memory.read_writeBytes_other (m : Memory) (a : Word) (bs : List Byte) (b : Word)
    (h : ∀ k < bs.length, b ≠ a + BitVec.ofNat 16 k) : (m.writeBytes a bs).read b = m.read b := by
  induction bs generalizing m a with
  | nil => rfl
  | cons v bs ih =>
    unfold Memory.writeBytes
    rw [ih]
    · exact Memory.read_write_other m v (by simpa using h 0 (by simp))
    · intro k hk
      have := h (k + 1) (by simpa using hk)
      rwa [Nat.add_comm, BitVec.ofNat_add, ← BitVec.add_assoc] at this

/-- The form, entry by entry. -/
theorem Memory.wf_cons (c : Host.Cell) (m : Memory) :
    Memory.wf (c :: m) = true ↔
      c.1 < Config.memSize ∧ c.2 ≠ 0x00#8 ∧ (∀ d ∈ m, c.1 < d.1) ∧ Memory.wf m = true := by
  simp [Memory.wf, and_assoc]

theorem Memory.wf_erase (m : Memory) (k : Nat) (h : m.wf = true) : (m.erase k).wf = true := by
  induction m with
  | nil => rfl
  | cons c m ih =>
    obtain ⟨h1, h2, h3, h4⟩ := (Memory.wf_cons c m).mp h
    by_cases hc : c.1 = k
    · simpa [Memory.erase, hc] using ih h4
    · have : Memory.erase (c :: m) k = c :: Memory.erase m k := by simp [Memory.erase, hc]
      rw [this]
      exact (Memory.wf_cons _ _).mpr ⟨h1, h2, fun d hd => h3 d (List.mem_filter.mp hd).1, ih h4⟩

theorem Memory.mem_insert (m : Memory) (k : Nat) (v : Byte) :
    ∀ d ∈ m.insert k v, d = (k, v) ∨ d ∈ m := by
  induction m with
  | nil => simp [Memory.insert]
  | cons c m ih =>
    intro d hd
    unfold Memory.insert at hd
    split at hd
    · simpa using hd
    · rcases List.mem_cons.mp hd with h | h
      · exact .inr (by simp [h])
      · exact (ih d h).imp_right (by simp_all)

theorem Memory.wf_insert (m : Memory) (k : Nat) (v : Byte) (h : m.wf = true) (hk : k < Config.memSize)
    (hv : v ≠ 0x00#8) (hn : ∀ c ∈ m, c.1 ≠ k) : (m.insert k v).wf = true := by
  induction m with
  | nil => exact (Memory.wf_cons _ _).mpr ⟨hk, hv, by simp, rfl⟩
  | cons c m ih =>
    obtain ⟨h1, h2, h3, h4⟩ := (Memory.wf_cons c m).mp h
    unfold Memory.insert
    split
    · next hlt =>
      refine (Memory.wf_cons _ _).mpr ⟨hk, hv, fun d hd => ?_, h⟩
      rcases List.mem_cons.mp hd with e | e
      · simpa [e] using hlt
      · exact Nat.lt_trans hlt (h3 d e)
    · next hge =>
      have hc : c.1 ≠ k := hn c (by simp)
      refine (Memory.wf_cons _ _).mpr ⟨h1, h2, fun d hd => ?_, ih h4 (fun d hd => hn d (by simp [hd]))⟩
      rcases Memory.mem_insert m k v d hd with e | e
      · simp only [e]; omega
      · exact h3 d e

/-- A byte write keeps the canonical form. -/
theorem Memory.wf_write (m : Memory) (a : Word) (v : Byte) (h : m.wf = true) : (m.write a v).wf = true := by
  unfold Memory.write
  split
  · exact Memory.wf_erase m _ h
  · next hv =>
    exact Memory.wf_insert _ _ _ (Memory.wf_erase m _ h) a.isLt hv (Memory.not_mem_erase m _)

/-- A word write keeps the canonical form. -/
theorem Memory.wf_write16 (m : Memory) (a d : Word) (h : m.wf = true) : (m.write16 a d).wf = true :=
  Memory.wf_write _ _ _ (Memory.wf_write _ _ _ h)

/-- The copy of a list of bytes keeps the canonical form. -/
theorem Memory.wf_writeBytes (m : Memory) (a : Word) (bs : List Byte) (h : m.wf = true) :
    (m.writeBytes a bs).wf = true := by
  induction bs generalizing m a with
  | nil => exact h
  | cons v bs ih => exact ih _ _ (Memory.wf_write m a v h)

/-- Reset memory is in the canonical form. -/
theorem State.reset_mem_wf : State.reset.mem.wf = true := rfl

end Sys2Proof.Machine
end

