-- ==== Sys2Proof/Laws/Ops.lean ====
section
/-! SUPPORT. Everything each shared operation can do, said once: the handlers, and the one inversion of
`exec` that every proof about all instructions starts from. -/

namespace Sys2Proof.Machine

/-- The load handler in its own terms, `pc` apart (41_load_store.md R94). -/
theorem loadValue_effect (r : Reg) (v : Byte) (m : AddrMode) (s : State) {n : Nat}
    (hn : n = 1 + m.byteCount) : LoadEffect r v n s (loadValue r v (s.pastInstr m)) where
  pc := by simp [loadValue, hn]
  dest := by simp [loadValue]
  others q h := by simp [loadValue, State.reg_setReg_other h]
  flags := by simpa [loadValue] using flagsFrom_flags s.p v
  mem b := by simp [loadValue]
  mode := by simp [loadValue]
  fault := by simp [loadValue]

/-- The load handler reads memory as it was before the instruction (R161). -/
theorem loadAt_effect (r : Reg) (ea : Word) (m : AddrMode) (s : State) {n : Nat}
    (hn : n = 1 + m.byteCount) :
    LoadEffect r (s.mem.read ea) n s (loadAt r ea (s.pastInstr m)) := by
  simpa [loadAt] using loadValue_effect r (s.mem.read ea) m s hn

/-- The store handler at the defaults, field by field (R113). -/
theorem storeA_params (ea : Word) (s : State) : storeA params ea s = (s.store ea s.a).updateFlags s.a := rfl

/-- The store handler at the defaults (R113). -/
theorem storeA_effect (ea : Word) (m : AddrMode) (s : State) {n : Nat} (hn : n = 1 + m.byteCount) :
    StoreEffect ea n s (storeA params ea (s.pastInstr m)) where
  pc := by simp [storeA_params, hn]
  stored := by simp [storeA_params]
  elsewhere b h := by simp [storeA_params, Memory.read_write_other _ _ h]
  regs q := by cases q <;> rfl
  flags := by simpa [storeA_params] using flagsFrom_flags s.p s.a
  mode := by simp [storeA_params]
  fault := by simp [storeA_params]

/-- `pc` past an instruction in the two moves of R25: the fetch's, then the resolver's. -/
theorem pastInstr_eq_fetch_then_resolve (m : AddrMode) (s : State) :
    s.pastInstr m = { s with pc := s.pc + 1#16 + BitVec.ofNat 16 m.byteCount } := by
  unfold State.pastInstr State.advancePc
  rw [BitVec.ofNat_add, ← BitVec.add_assoc]

/-- The resolver gives an address exactly in the modes that have one, and never fails (R93). -/
theorem resolveEa_isSome (c : Config.Params) (m : AddrMode) (pc : Word) (x y : Byte) (mem : Memory) :
    (resolveEa c m pc x y mem).isSome = m.givesAddress := by
  cases m <;> rfl

/-- The alu answers none exactly when its mnemonic needs an address and has none (R124, R142). -/
theorem alu_eq_none_iff (c : Config.Params) (mn : Mnemonic) (ea : Option Word) (a x : Byte) (mem : Memory) :
    alu c mn ea a x mem = none ↔ mn.needsAddress = true ∧ ea = none := by
  cases mn <;> cases ea <;> simp [alu, Mnemonic.needsAddress]

/-- What one instruction can do: it always answers a next state, and that state is the load handler's,
the store handler's or Halt's, by its mnemonic. -/
theorem exec_cases (i : Instr) (s : State) :
    (∃ r v, destReg i.mnemonic = some r ∧ exec i s = .next (loadValue r v (s.pastInstr i.mode))) ∨
    (∃ ea, i.mnemonic = .storeA ∧ exec i s = .next (storeA params ea (s.pastInstr i.mode))) ∨
    (i.mnemonic = .halt ∧ exec i s = .next (s.pastInstr i.mode).toHalted) := by
  cases i <;>
    first
      | exact .inl ⟨_, _, rfl, rfl⟩
      | exact .inr (.inl ⟨_, rfl, rfl⟩)
      | exact .inr (.inr ⟨rfl, rfl⟩)

/-- The bytes fetched are never too few: either the byte at `pc` has a row and the instruction fetched is
of that row, or it has none and nothing is fetched. -/
theorem fetchInstr_cases (s : State) :
    (∃ r i, lookup catalog (s.mem.read s.pc) = some r ∧ s.fetchInstr = some i ∧
      i.mnemonic = r.mnemonic ∧ i.mode = r.mode ∧ i.opcode = s.mem.read s.pc) ∨
    (lookup catalog (s.mem.read s.pc) = none ∧ s.fetchInstr = none) := by
  unfold State.fetchInstr State.fetchBytes
  cases h : lookup catalog (s.mem.read s.pc) with
  | none => exact .inr ⟨rfl, by simp [decode, h, DecodeResult.toInstr]⟩
  | some r =>
    obtain ⟨i, rest, hd, h1, h2, h3, _⟩ :=
      decode_of_row h (s.mem.read (s.pc + 1#16)) (s.mem.read (s.pc + 2#16)) []
    exact .inl ⟨r, i, rfl, by rw [hd]; rfl, h1, h2, h3⟩

/-- A step by the execution loop's state: what each state answers. -/
theorem step_cases (s : State) :
    (s.mode = .running ∧ ∃ i, s.fetchInstr = some i ∧ step s = exec i s) ∨
    (s.mode = .running ∧ s.fetchInstr = none ∧ step s = .next s.takeDecodeFault) ∨
    (s.mode ≠ .running ∧ step s = stepStopped s) := by
  unfold step stepByMode
  cases hm : s.mode with
  | running =>
    unfold stepRunning
    cases hf : s.fetchInstr with
    | some i => exact .inl ⟨rfl, i, rfl, rfl⟩
    | none => exact .inr (.inl ⟨rfl, rfl, rfl⟩)
  | halted => exact .inr (.inr ⟨by simp, rfl⟩)
  | faulted => exact .inr (.inr ⟨by simp, rfl⟩)

/-- A block that is not Running never answers a next state. -/
theorem stepStopped_not_next (s t : State) : stepStopped s ≠ .next t := by
  unfold stepStopped
  split <;> simp

end Sys2Proof.Machine
end

