-- ==== Sys2Proof/Laws/PerInstr.lean ====
section
/-! SUPPORT. One lemma per instruction, as syntax: its opcode byte has a row in the catalog with its
mnemonic and mode, and its operand has that mode's width. -/

namespace Sys2Proof.Laws.CatalogRow

/-- The instruction's opcode byte looks up a row with the instruction's own mnemonic and mode
(30_encoding.md R66-R70), and the instruction is well formed (R59, R71). -/
def Statement (i : Instr) : Prop :=
  (lookup catalog i.opcode).map (fun r => (r.mnemonic, r.mode)) = some (i.mnemonic, i.mode) ∧
    i.wf = true

theorem halt : Statement .halt := ⟨rfl, rfl⟩
theorem loadAImmediate (imm : Byte) : Statement (.loadAImmediate imm) := ⟨rfl, rfl⟩
theorem loadAZeroPage (zp : Byte) : Statement (.loadAZeroPage zp) := ⟨rfl, rfl⟩
theorem loadAZeroPageX (zp : Byte) : Statement (.loadAZeroPageX zp) := ⟨rfl, rfl⟩
theorem loadAAbsolute (abs : Word) : Statement (.loadAAbsolute abs) := ⟨rfl, rfl⟩
theorem loadAAbsoluteX (abs : Word) : Statement (.loadAAbsoluteX abs) := ⟨rfl, rfl⟩
theorem loadAAbsoluteY (abs : Word) : Statement (.loadAAbsoluteY abs) := ⟨rfl, rfl⟩
theorem loadAIndirectX (zp : Byte) : Statement (.loadAIndirectX zp) := ⟨rfl, rfl⟩
theorem loadAIndirectY (zp : Byte) : Statement (.loadAIndirectY zp) := ⟨rfl, rfl⟩
theorem loadXImmediate (imm : Byte) : Statement (.loadXImmediate imm) := ⟨rfl, rfl⟩
theorem loadXZeroPage (zp : Byte) : Statement (.loadXZeroPage zp) := ⟨rfl, rfl⟩
theorem loadXZeroPageY (zp : Byte) : Statement (.loadXZeroPageY zp) := ⟨rfl, rfl⟩
theorem loadXAbsolute (abs : Word) : Statement (.loadXAbsolute abs) := ⟨rfl, rfl⟩
theorem loadXAbsoluteY (abs : Word) : Statement (.loadXAbsoluteY abs) := ⟨rfl, rfl⟩
theorem loadYImmediate (imm : Byte) : Statement (.loadYImmediate imm) := ⟨rfl, rfl⟩
theorem loadYZeroPage (zp : Byte) : Statement (.loadYZeroPage zp) := ⟨rfl, rfl⟩
theorem loadYZeroPageX (zp : Byte) : Statement (.loadYZeroPageX zp) := ⟨rfl, rfl⟩
theorem loadYAbsolute (abs : Word) : Statement (.loadYAbsolute abs) := ⟨rfl, rfl⟩
theorem loadYAbsoluteX (abs : Word) : Statement (.loadYAbsoluteX abs) := ⟨rfl, rfl⟩
theorem storeAZeroPage (zp : Byte) : Statement (.storeAZeroPage zp) := ⟨rfl, rfl⟩
theorem storeAZeroPageX (zp : Byte) : Statement (.storeAZeroPageX zp) := ⟨rfl, rfl⟩
theorem storeAAbsolute (abs : Word) : Statement (.storeAAbsolute abs) := ⟨rfl, rfl⟩
theorem storeAAbsoluteX (abs : Word) : Statement (.storeAAbsoluteX abs) := ⟨rfl, rfl⟩
theorem storeAAbsoluteY (abs : Word) : Statement (.storeAAbsoluteY abs) := ⟨rfl, rfl⟩
theorem storeAIndirectX (zp : Byte) : Statement (.storeAIndirectX zp) := ⟨rfl, rfl⟩
theorem storeAIndirectY (zp : Byte) : Statement (.storeAIndirectY zp) := ⟨rfl, rfl⟩
theorem transferAtoX : Statement .transferAtoX := ⟨rfl, rfl⟩
theorem incrementX : Statement .incrementX := ⟨rfl, rfl⟩

end Sys2Proof.Laws.CatalogRow
end

