-- ==== Sys2Proof/Machine/Assembly.lean ====
section
/-! DEFINITION. The assembler text of an instruction (30_encoding.md R74): for the reader of a program;
no step reads it. There are no pseudo-instructions (R75). -/

namespace Sys2Proof.Machine

/-- The conventional short mnemonic (R2, R67-R70). -/
def shortName : Mnemonic → String
  | .halt => "BRK"
  | .loadA => "LDA"
  | .loadX => "LDX"
  | .loadY => "LDY"
  | .storeA => "STA"
  | .transferAtoX => "TAX"
  | .incrementX => "INX"

/-- A hexadecimal digit. -/
def hexDigit (n : Nat) : String := (["0", "1", "2", "3", "4", "5", "6", "7", "8", "9", "A", "B", "C", "D", "E", "F"]).getD n "0"

/-- `$nn`. -/
def hexByte (b : Byte) : String := "$" ++ hexDigit (b.toNat / 16) ++ hexDigit (b.toNat % 16)

/-- `$nnnn`. -/
def hexWord (w : Word) : String :=
  "$" ++ hexDigit (w.toNat / 4096) ++ hexDigit (w.toNat / 256 % 16) ++ hexDigit (w.toNat / 16 % 16) ++ hexDigit (w.toNat % 16)

/-- The number of an operand: two digits for a byte, four for a word (R74). -/
def operandNumber : Operand → String
  | .none => ""
  | .byte b => hexByte b
  | .word w => hexWord w

/-- The text of an operand under a mode, the rows of R74's table. A Relative operand is given as its
target word. -/
def operandText (m : AddrMode) (o : Operand) : String :=
  match m with
  | .implied => ""
  | .accumulator => " A"
  | .immediate => " #" ++ operandNumber o
  | .zeroPage => " " ++ operandNumber o
  | .zeroPageX => " " ++ operandNumber o ++ ",X"
  | .zeroPageY => " " ++ operandNumber o ++ ",Y"
  | .relative => " " ++ operandNumber o
  | .absolute => " " ++ operandNumber o
  | .absoluteX => " " ++ operandNumber o ++ ",X"
  | .absoluteY => " " ++ operandNumber o ++ ",Y"
  | .indirect => " (" ++ operandNumber o ++ ")"
  | .indirectX => " (" ++ operandNumber o ++ ",X)"
  | .indirectY => " (" ++ operandNumber o ++ "),Y"

/-- One line of assembler text (R74). -/
def asmText (i : Instr) : String := shortName i.mnemonic ++ operandText i.mode i.operand

end Sys2Proof.Machine
end

