-- ==== Sys2Proof/Tests/Slice0.lean ====
section
/-! SUPPORT. The model's own tests: every constructor's encoding written out from the spec, the spec's
vectors (95_test_vectors.md), the ill-formed terms each check refuses, and a witness for every statement
with hypotheses. -/

namespace Sys2Proof.Tests

open Sys2Proof Sys2Proof.Machine Sys2Proof.Config

/-! ## Decoding: the words of 30_encoding.md R67-R70 written out by their bits -/

theorem test_decode_halt : decodeTableWord 8 0b00000000 = some .halt := by decide
theorem test_decode_loadAImmediate : decodeTableWord 16 0b10010110_10101001 = some (.loadAImmediate 0x96#8) := by decide
theorem test_decode_loadAZeroPage : decodeTableWord 16 0b10010110_10100101 = some (.loadAZeroPage 0x96#8) := by decide
theorem test_decode_loadAZeroPageX : decodeTableWord 16 0b10010110_10110101 = some (.loadAZeroPageX 0x96#8) := by decide
theorem test_decode_loadAAbsolute : decodeTableWord 24 0b10101011_00010010_10101101 = some (.loadAAbsolute 0xAB12#16) := by decide
theorem test_decode_loadAAbsoluteX : decodeTableWord 24 0b10101011_00010010_10111101 = some (.loadAAbsoluteX 0xAB12#16) := by decide
theorem test_decode_loadAAbsoluteY : decodeTableWord 24 0b10101011_00010010_10111001 = some (.loadAAbsoluteY 0xAB12#16) := by decide
theorem test_decode_loadAIndirectX : decodeTableWord 16 0b10010110_10100001 = some (.loadAIndirectX 0x96#8) := by decide
theorem test_decode_loadAIndirectY : decodeTableWord 16 0b10010110_10110001 = some (.loadAIndirectY 0x96#8) := by decide
theorem test_decode_loadXImmediate : decodeTableWord 16 0b10010110_10100010 = some (.loadXImmediate 0x96#8) := by decide
theorem test_decode_loadXZeroPage : decodeTableWord 16 0b10010110_10100110 = some (.loadXZeroPage 0x96#8) := by decide
theorem test_decode_loadXZeroPageY : decodeTableWord 16 0b10010110_10110110 = some (.loadXZeroPageY 0x96#8) := by decide
theorem test_decode_loadXAbsolute : decodeTableWord 24 0b10101011_00010010_10101110 = some (.loadXAbsolute 0xAB12#16) := by decide
theorem test_decode_loadXAbsoluteY : decodeTableWord 24 0b10101011_00010010_10111110 = some (.loadXAbsoluteY 0xAB12#16) := by decide
theorem test_decode_loadYImmediate : decodeTableWord 16 0b10010110_10100000 = some (.loadYImmediate 0x96#8) := by decide
theorem test_decode_loadYZeroPage : decodeTableWord 16 0b10010110_10100100 = some (.loadYZeroPage 0x96#8) := by decide
theorem test_decode_loadYZeroPageX : decodeTableWord 16 0b10010110_10110100 = some (.loadYZeroPageX 0x96#8) := by decide
theorem test_decode_loadYAbsolute : decodeTableWord 24 0b10101011_00010010_10101100 = some (.loadYAbsolute 0xAB12#16) := by decide
theorem test_decode_loadYAbsoluteX : decodeTableWord 24 0b10101011_00010010_10111100 = some (.loadYAbsoluteX 0xAB12#16) := by decide
theorem test_decode_storeAZeroPage : decodeTableWord 16 0b10010110_10000101 = some (.storeAZeroPage 0x96#8) := by decide
theorem test_decode_storeAZeroPageX : decodeTableWord 16 0b10010110_10010101 = some (.storeAZeroPageX 0x96#8) := by decide
theorem test_decode_storeAAbsolute : decodeTableWord 24 0b10101011_00010010_10001101 = some (.storeAAbsolute 0xAB12#16) := by decide
theorem test_decode_storeAAbsoluteX : decodeTableWord 24 0b10101011_00010010_10011101 = some (.storeAAbsoluteX 0xAB12#16) := by decide
theorem test_decode_storeAAbsoluteY : decodeTableWord 24 0b10101011_00010010_10011001 = some (.storeAAbsoluteY 0xAB12#16) := by decide
theorem test_decode_storeAIndirectX : decodeTableWord 16 0b10010110_10000001 = some (.storeAIndirectX 0x96#8) := by decide
theorem test_decode_storeAIndirectY : decodeTableWord 16 0b10010110_10010001 = some (.storeAIndirectY 0x96#8) := by decide
theorem test_decode_transferAtoX : decodeTableWord 8 0b10101010 = some .transferAtoX := by decide
theorem test_decode_incrementX : decodeTableWord 8 0b11101000 = some .incrementX := by decide

/-- R72: an undocumented byte, a no-op of the historical CPU and StoreA Immediate have no row (V-D1 to V-D4). -/
theorem test_decode_illegal :
    decodeTableWord 8 0x02 = none ∧ decodeTableWord 8 0xEA = none ∧ decodeTableWord 8 0x89 = none ∧
      decodeTableWord 8 0xFF = none := by decide

/-- A list that ends inside an instruction is rejected by name. -/
theorem test_decode_truncated :
    decode [] = .truncated ∧ decode [0xA9#8] = .truncated ∧ decode [0xAD#8, 0x00#8] = .truncated := by decide

/-- The opcode byte is rejected by name, before its operand is asked for. -/
theorem test_decode_rejects : decode [0x02#8] = .illegalOpcode 0x02#8 := by decide

/-! ## Well-formedness: an ill-formed term for each check -/

/-- R65: the default catalog is accepted; one with a byte twice is refused. -/
theorem test_wf_unique_bytes :
    catalogWf catalog = true ∧
      uniqueBytes [⟨0xA9#8, .loadA, 2, .immediate⟩, ⟨0xA9#8, .loadX, 2, .immediate⟩] = false := by decide

/-- R71: StoreA with a mode that gives no address is refused. -/
theorem test_wf_row :
    OpcodeRecord.wf ⟨0x89#8, .storeA, 2, .accumulator⟩ = false ∧
      catalogWf [⟨0x89#8, .storeA, 2, .implied⟩] = false := by decide

/-- R59: an operand of another width than the mode's is refused. -/
theorem test_wf_operand :
    Operand.fits .absolute (.byte 0x00#8) = false ∧ Operand.fits .zeroPage .none = false ∧
      Operand.fits .implied (.word 0x0000#16) = false := by decide

/-! ## Helpers: a small Running state, and one step of it -/

/-- A Running block with bytes at `pc` and the given memory bytes. -/
def small (pc : Word) (bytes : List Byte) (pokes : List (Word × Byte) := []) (a x y p : Byte := 0x00#8) : State :=
  { State.reset with
    pc := pc, a := a, x := x, y := y, p := p
    mem := pokes.foldl (fun m c => m.write c.1 c.2) (Memory.writeBytes [] pc bytes) }

/-- What `f` sees after one step, if the step answers a next state. -/
def afterStep {α : Type} (s : State) (f : State → α) : Option α :=
  match step s with
  | .next t => some (f t)
  | .fault _ => none
  | .refused _ => none

/-! ## The flag unit, memory and the resolver -/

/-- V-F1 to V-F9. -/
theorem test_flags :
    flags 0x00#8 0x00#8 = 0x02#8 ∧ flags 0x00#8 0x01#8 = 0x00#8 ∧ flags 0x00#8 0x7F#8 = 0x00#8 ∧
      flags 0x00#8 0x80#8 = 0x80#8 ∧ flags 0x02#8 0xFF#8 = 0x80#8 ∧ flags 0x7D#8 0x00#8 = 0x7F#8 ∧
      flags 0xFF#8 0x01#8 = 0x7D#8 ∧ flags 0x7D#8 0x80#8 = 0xFD#8 ∧ flags 0x82#8 0x40#8 = 0x00#8 := by decide

/-- V-M1: a word at 0xFFFF wraps. -/
theorem test_word_wraps :
    (Memory.write16 [] 0xFFFF#16 0xBEEF#16).read 0xFFFF#16 = 0xEF#8 ∧
      (Memory.write16 [] 0xFFFF#16 0xBEEF#16).read 0x0000#16 = 0xBE#8 ∧
      (Memory.write16 [] 0xFFFF#16 0xBEEF#16).read16 0xFFFF#16 = 0xBEEF#16 := by decide

/-- V-M3: little-endian. -/
theorem test_little_endian :
    Memory.read16 [(0x2000, 0x01#8), (0x2001, 0x02#8)] 0x2000#16 = 0x0201#16 := by decide

/-- Writing 0x00 removes the entry: equal memories are equal data (R36). -/
theorem test_canonical :
    Memory.write (Memory.write [(5, 0x01#8)] 0x0003#16 0x07#8) 0x0005#16 0x00#8 = [(3, 0x07#8)] := by decide

/-- V-A1 to V-A8: the modes without a word operand. -/
theorem test_resolve_bytes :
    resolve params .implied 0x8003#16 0#8 0#8 [] = (none, 0x8003#16) ∧
    resolve params .accumulator 0x1000#16 0#8 0#8 [] = (none, 0x1000#16) ∧
    resolve params .immediate 0x8001#16 0#8 0#8 [(0x8001, 0x05#8)] = (some 0x8001#16, 0x8002#16) ∧
    resolve params .immediate 0xFFFF#16 0#8 0#8 [(0xFFFF, 0x05#8)] = (some 0xFFFF#16, 0x0000#16) ∧
    resolve params .zeroPage 0x8001#16 0#8 0#8 [(0x8001, 0x50#8)] = (some 0x0050#16, 0x8002#16) ∧
    resolve params .zeroPageX 0x8001#16 0xFF#8 0#8 [(0x8001, 0x80#8)] = (some 0x007F#16, 0x8002#16) ∧
    resolve params .zeroPageX 0x8001#16 0x05#8 0#8 [(0x8001, 0x10#8)] = (some 0x0015#16, 0x8002#16) ∧
    resolve params .zeroPageY 0x8001#16 0#8 0xFF#8 [(0x8001, 0x80#8)] = (some 0x007F#16, 0x8002#16) := by decide

/-- V-A9, V-A10: Relative under the defaults and under each other value. -/
theorem test_resolve_relative :
    resolve params .relative 0x8001#16 0#8 0#8 [(0x8001, 0xFE#8)] = (some 0x7FFF#16, 0x8002#16) ∧
    resolve { params with relBase := .nextInstruction } .relative 0x8001#16 0#8 0#8 [(0x8001, 0xFE#8)] = (some 0x8000#16, 0x8002#16) ∧
    resolve { params with relExt := .zero } .relative 0x8001#16 0#8 0#8 [(0x8001, 0xFE#8)] = (some 0x80FF#16, 0x8002#16) ∧
    resolve params .relative 0x0000#16 0#8 0#8 [(0, 0xFF#8)] = (some 0xFFFF#16, 0x0001#16) := by decide

/-- V-A11 to V-A18: the modes with a word operand. -/
theorem test_resolve_words :
    resolve params .absolute 0x8001#16 0#8 0#8 [(0x8001, 0x05#8), (0x8002, 0x80#8)] = (some 0x8005#16, 0x8003#16) ∧
    resolve params .absolute 0xFFFF#16 0#8 0#8 [(0, 0x12#8), (0xFFFF, 0x34#8)] = (some 0x1234#16, 0x0001#16) ∧
    resolve params .absoluteX 0x8001#16 0x01#8 0#8 [(0x8001, 0xFF#8), (0x8002, 0xFF#8)] = (some 0x0000#16, 0x8003#16) ∧
    resolve params .absoluteX 0x8001#16 0x10#8 0#8 [(0x8001, 0x34#8), (0x8002, 0x12#8)] = (some 0x1244#16, 0x8003#16) ∧
    resolve params .absoluteY 0x8001#16 0#8 0x20#8 [(0x8001, 0xF0#8), (0x8002, 0x12#8)] = (some 0x1310#16, 0x8003#16) ∧
    resolve params .absoluteY 0x8001#16 0#8 0x20#8 [(0x8001, 0xF0#8), (0x8002, 0xFF#8)] = (some 0x0010#16, 0x8003#16) ∧
    resolve params .indirect 0x8001#16 0#8 0#8 [(0x3000, 0x34#8), (0x3001, 0x12#8), (0x8002, 0x30#8)] = (some 0x1234#16, 0x8003#16) ∧
    resolve params .indirect 0x8001#16 0#8 0#8 [(0x1200, 0x99#8), (0x12FF, 0x78#8), (0x1300, 0x56#8), (0x8001, 0xFF#8), (0x8002, 0x12#8)] = (some 0x5678#16, 0x8003#16) := by decide

/-- V-A19 to V-A24: the pointer modes, V-A20 and V-A23 under both wraps. -/
theorem test_resolve_pointers :
    resolve params .indirectX 0x8001#16 0x04#8 0#8 [(0x25, 0x60#8), (0x8001, 0x20#8)] = (some 0x6000#16, 0x8002#16) ∧
    resolve params .indirectX 0x8001#16 0x01#8 0#8 [(0, 0x12#8), (0xFF, 0x34#8), (0x100, 0x56#8), (0x8001, 0xFE#8)] = (some 0x1234#16, 0x8002#16) ∧
    resolve { params with indxHiWrap := .linear } .indirectX 0x8001#16 0x01#8 0#8 [(0, 0x12#8), (0xFF, 0x34#8), (0x100, 0x56#8), (0x8001, 0xFE#8)] = (some 0x5634#16, 0x8002#16) ∧
    resolve params .indirectX 0x8001#16 0x90#8 0#8 [(0x10, 0xCD#8), (0x11, 0xAB#8), (0x8001, 0x80#8)] = (some 0xABCD#16, 0x8002#16) ∧
    resolve params .indirectY 0x8001#16 0#8 0x05#8 [(0x51, 0x50#8), (0x8001, 0x50#8)] = (some 0x5005#16, 0x8002#16) ∧
    resolve params .indirectY 0x8001#16 0#8 0x00#8 [(0, 0x12#8), (0xFF, 0x34#8), (0x100, 0x56#8), (0x8001, 0xFF#8)] = (some 0x1234#16, 0x8002#16) ∧
    resolve { params with indyHiWrap := .linear } .indirectY 0x8001#16 0#8 0x00#8 [(0, 0x12#8), (0xFF, 0x34#8), (0x100, 0x56#8), (0x8001, 0xFF#8)] = (some 0x5634#16, 0x8002#16) ∧
    resolve params .indirectY 0x8001#16 0#8 0x01#8 [(0x40, 0xFF#8), (0x41, 0xFF#8), (0x8001, 0x40#8)] = (some 0x0000#16, 0x8002#16) := by decide

/-! ## One instruction each: the load vectors V-L1 to V-L19 -/

/-- V-L1. -/
theorem test_loadAImmediate_zero :
    afterStep (small 0x8000#16 [0xA9#8, 0x00#8] []) (fun t => (t.a, t.p, t.pc)) = some (0x00#8, 0x02#8, 0x8002#16) := by decide

/-- V-L2. -/
theorem test_loadAImmediate_negative :
    afterStep (small 0x8000#16 [0xA9#8, 0x80#8] [] (p := 0x02#8)) (fun t => (t.a, t.p, t.pc)) = some (0x80#8, 0x80#8, 0x8002#16) := by decide

/-- V-L3. -/
theorem test_loadAZeroPage :
    afterStep (small 0x8000#16 [0xA5#8, 0x50#8] [(0x0050#16, 0x80#8)]) (fun t => (t.a, t.p, t.pc)) = some (0x80#8, 0x80#8, 0x8002#16) := by decide

/-- V-L4. -/
theorem test_loadAZeroPageX :
    afterStep (small 0x8000#16 [0xB5#8, 0x80#8] [(0x007F#16, 0x00#8), (0x017F#16, 0x99#8)] (x := 0xFF#8)) (fun t => (t.a, t.p, t.pc)) = some (0x00#8, 0x02#8, 0x8002#16) := by decide

/-- V-L5. -/
theorem test_loadAAbsolute :
    afterStep (small 0x8000#16 [0xAD#8, 0x00#8, 0x30#8] [(0x3000#16, 0x7F#8)]) (fun t => (t.a, t.p, t.pc)) = some (0x7F#8, 0x00#8, 0x8003#16) := by decide

/-- V-L6. -/
theorem test_loadAAbsoluteX :
    afterStep (small 0x8000#16 [0xBD#8, 0xFF#8, 0xFF#8] [(0x0000#16, 0x42#8)] (x := 0x01#8)) (fun t => (t.a, t.p, t.pc)) = some (0x42#8, 0x00#8, 0x8003#16) := by decide

/-- V-L7. -/
theorem test_loadAAbsoluteY :
    afterStep (small 0x8000#16 [0xB9#8, 0xF0#8, 0x12#8] [(0x1310#16, 0xC3#8)] (y := 0x20#8)) (fun t => (t.a, t.p, t.pc)) = some (0xC3#8, 0x80#8, 0x8003#16) := by decide

/-- V-L8. -/
theorem test_loadAIndirectX :
    afterStep (small 0x8000#16 [0xA1#8, 0xFE#8] [(0x00FF#16, 0x34#8), (0x0000#16, 0x12#8), (0x0100#16, 0x56#8), (0x1234#16, 0x77#8), (0x5634#16, 0x88#8)] (x := 0x01#8)) (fun t => (t.a, t.p, t.pc)) = some (0x77#8, 0x00#8, 0x8002#16) := by decide

/-- V-L9. -/
theorem test_loadAIndirectY :
    afterStep (small 0x8000#16 [0xB1#8, 0x50#8] [(0x0050#16, 0x00#8), (0x0051#16, 0x50#8), (0x5005#16, 0xEA#8)] (y := 0x05#8)) (fun t => (t.a, t.p, t.pc)) = some (0xEA#8, 0x80#8, 0x8002#16) := by decide

/-- V-L10. -/
theorem test_loadXImmediate :
    afterStep (small 0x8000#16 [0xA2#8, 0xFF#8] []) (fun t => (t.x, t.p, t.pc)) = some (0xFF#8, 0x80#8, 0x8002#16) := by decide

/-- V-L11. -/
theorem test_loadXZeroPage :
    afterStep (small 0x8000#16 [0xA6#8, 0x10#8] [(0x0010#16, 0x00#8)] (p := 0x80#8)) (fun t => (t.x, t.p, t.pc)) = some (0x00#8, 0x02#8, 0x8002#16) := by decide

/-- V-L12. -/
theorem test_loadXZeroPageY :
    afterStep (small 0x8000#16 [0xB6#8, 0x20#8] [(0x0023#16, 0x11#8)] (y := 0x03#8)) (fun t => (t.x, t.p, t.pc)) = some (0x11#8, 0x00#8, 0x8002#16) := by decide

/-- V-L13. -/
theorem test_loadXAbsolute :
    afterStep (small 0x8000#16 [0xAE#8, 0xFD#8, 0xFF#8] [(0xFFFC#16, 0x00#8), (0xFFFD#16, 0x80#8)]) (fun t => (t.x, t.p, t.pc)) = some (0x80#8, 0x80#8, 0x8003#16) := by decide

/-- V-L14. -/
theorem test_loadXAbsoluteY :
    afterStep (small 0x8000#16 [0xBE#8, 0xFF#8, 0xFF#8] [(0x00FE#16, 0x01#8)] (y := 0xFF#8)) (fun t => (t.x, t.p, t.pc)) = some (0x01#8, 0x00#8, 0x8003#16) := by decide

/-- V-L15. -/
theorem test_loadYImmediate :
    afterStep (small 0x8000#16 [0xA0#8, 0x05#8] []) (fun t => (t.y, t.p, t.pc)) = some (0x05#8, 0x00#8, 0x8002#16) := by decide

/-- V-L16. -/
theorem test_loadYZeroPage :
    afterStep (small 0x8000#16 [0xA4#8, 0x00#8] [(0x0000#16, 0xFE#8)]) (fun t => (t.y, t.p, t.pc)) = some (0xFE#8, 0x80#8, 0x8002#16) := by decide

/-- V-L17. -/
theorem test_loadYZeroPageX :
    afterStep (small 0x8000#16 [0xB4#8, 0xF0#8] [(0x0010#16, 0x00#8)] (x := 0x20#8)) (fun t => (t.y, t.p, t.pc)) = some (0x00#8, 0x02#8, 0x8002#16) := by decide

/-- V-L18. -/
theorem test_loadYAbsolute :
    afterStep (small 0x8000#16 [0xAC#8, 0x00#8, 0x80#8] []) (fun t => (t.y, t.p, t.pc)) = some (0xAC#8, 0x80#8, 0x8003#16) := by decide

/-- V-L19. -/
theorem test_loadYAbsoluteX :
    afterStep (small 0x8000#16 [0xBC#8, 0xF0#8, 0xFF#8] [(0x0000#16, 0x7F#8)] (x := 0x10#8)) (fun t => (t.y, t.p, t.pc)) = some (0x7F#8, 0x00#8, 0x8003#16) := by decide

/-! ## The store vectors V-S1 to V-S8 -/

/-- V-S1. -/
theorem test_storeAZeroPage :
    afterStep (small 0x8000#16 [0x85#8, 0x10#8] [] (a := 0x00#8) (p := 0x80#8)) (fun t => (t.mem.read 0x0010#16, t.p, t.pc)) = some (0x00#8, 0x02#8, 0x8002#16) := by decide

/-- V-S2. -/
theorem test_storeAZeroPageX :
    afterStep (small 0x8000#16 [0x95#8, 0x80#8] [] (a := 0x42#8) (x := 0xFF#8)) (fun t => (t.mem.read 0x007F#16, t.p, t.pc)) = some (0x42#8, 0x00#8, 0x8002#16) := by decide

/-- V-S3. -/
theorem test_storeAAbsolute :
    afterStep (small 0x8000#16 [0x8D#8, 0x05#8, 0x80#8] [] (a := 0xE8#8)) (fun t => (t.mem.read 0x8005#16, t.p, t.pc)) = some (0xE8#8, 0x80#8, 0x8003#16) := by decide

/-- V-S4. -/
theorem test_storeAAbsoluteX :
    afterStep (small 0x8000#16 [0x9D#8, 0xFF#8, 0xFF#8] [] (a := 0x01#8) (x := 0x01#8)) (fun t => (t.mem.read 0x0000#16, t.p, t.pc)) = some (0x01#8, 0x00#8, 0x8003#16) := by decide

/-- V-S5. -/
theorem test_storeAAbsoluteY :
    afterStep (small 0x8000#16 [0x99#8, 0xFB#8, 0xFF#8] [] (a := 0x90#8) (y := 0x01#8)) (fun t => (t.mem.read 0xFFFC#16, t.p, t.pc)) = some (0x90#8, 0x80#8, 0x8003#16) := by decide

/-- V-S6. -/
theorem test_storeAIndirectX :
    afterStep (small 0x8000#16 [0x81#8, 0x20#8] [(0x0025#16, 0x60#8)] (a := 0x33#8) (x := 0x04#8)) (fun t => (t.mem.read 0x6000#16, t.p, t.pc)) = some (0x33#8, 0x00#8, 0x8002#16) := by decide

/-- V-S7. -/
theorem test_storeAIndirectY :
    afterStep (small 0x8000#16 [0x91#8, 0x50#8] [(0x0051#16, 0x50#8)] (a := 0xEA#8) (y := 0x05#8)) (fun t => (t.mem.read 0x5005#16, t.p, t.pc)) = some (0xEA#8, 0x80#8, 0x8002#16) := by decide

/-- V-S8. -/
theorem test_storeAIndirectX_over_its_pointer :
    afterStep (small 0x8000#16 [0x81#8, 0x24#8] [(0x0024#16, 0x24#8)] (a := 0x77#8) (x := 0x00#8)) (fun t => (t.mem.read 0x0024#16, t.p, t.pc)) = some (0x77#8, 0x00#8, 0x8002#16) := by decide

/-- V-S1 with STORE_SETS_FLAGS false: `p` is unchanged, the byte is stored all the same. -/
theorem test_storeA_without_flags :
    (storeA { params with storeSetsFlags := false } 0x0010#16 (small 0x8000#16 [] (a := 0x33#8) (p := 0x80#8))).p = 0x80#8 ∧
      (storeA { params with storeSetsFlags := false } 0x0010#16 (small 0x8000#16 [] (a := 0x33#8))).mem.read 0x0010#16 = 0x33#8 := by
  decide

/-! ## Transfer, increment, Halt and the decode fault -/

/-- V-T1. -/
theorem test_transferAtoX_zero :
    afterStep (small 0x8002#16 [0xAA#8] [] (a := 0x00#8) (x := 0x55#8) (p := 0x80#8)) (fun t => (t.x, t.p, t.pc)) = some (0x00#8, 0x02#8, 0x8003#16) := by decide

/-- V-T3. -/
theorem test_transferAtoX_reserved_bits :
    afterStep (small 0x8002#16 [0xAA#8] [] (a := 0x45#8) (p := 0x7D#8)) (fun t => (t.x, t.p, t.pc)) = some (0x45#8, 0x7D#8, 0x8003#16) := by decide

/-- V-I1. -/
theorem test_incrementX_wraps :
    afterStep (small 0x8002#16 [0xE8#8] [] (x := 0xFF#8)) (fun t => (t.x, t.p, t.pc)) = some (0x00#8, 0x02#8, 0x8003#16) := by decide

/-- V-I2. -/
theorem test_incrementX_negative :
    afterStep (small 0x8002#16 [0xE8#8] [] (x := 0x7F#8)) (fun t => (t.x, t.p, t.pc)) = some (0x80#8, 0x80#8, 0x8003#16) := by decide

/-- V-H1: nothing changes but `mode` and `pc`. -/
theorem test_halt :
    afterStep (small 0x8002#16 [0x00#8] [] (a := 0x01#8) (p := 0x82#8)) id =
      some { small 0x8002#16 [0x00#8] [] (a := 0x01#8) (p := 0x82#8) with pc := 0x8003#16, mode := .halted } := by
  decide

/-- V-H2: Halt at 0xFFFF. -/
theorem test_halt_wraps :
    afterStep (small 0xFFFF#16 [0x00#8]) (fun t => (t.mode, t.pc)) = some (.halted, 0x0000#16) := by decide

/-- V-D1: nothing changes but `mode`, `fault` and `pc`. -/
theorem test_decode_fault :
    afterStep (small 0x8002#16 [0x02#8] [] (a := 0x01#8)) id =
      some { small 0x8002#16 [0x02#8] [] (a := 0x01#8) with
        pc := 0x8003#16, mode := .faulted, fault := some (.decodeFault 0x02#8 0x8002#16) } := by
  decide

/-- V-D4: the fault at 0xFFFF. -/
theorem test_decode_fault_wraps :
    afterStep (small 0xFFFF#16 [0xFF#8]) (fun t => (t.pc, t.fault)) =
      some (0x0000#16, some (.decodeFault 0xFF#8 0xFFFF#16)) := by decide

/-- V-D5: `run()` in Faulted takes no step and returns the same fault. -/
theorem test_run_in_faulted :
    runBounded params catalog 3 (small 0x8002#16 [0x02#8]).takeDecodeFault =
      .next ((small 0x8002#16 [0x02#8]).takeDecodeFault, .faulted (some (.decodeFault 0x02#8 0x8002#16))) := rfl

/-- R142: a catalog row that gives StoreA no address faults at the step. -/
theorem test_resolution_fault :
    (blockStep params [⟨0x89#8, .storeA, 2, .implied⟩] (small 0x8000#16 [0x89#8])).fault =
      some (.resolutionFault 0x89#8 0x8000#16 .implied) := by decide

/-! ## The host's operations -/

/-- V-R1, V-R2: `new()`, then `reset()`. -/
theorem test_new_reset : newInstance.mode = .halted ∧ applyReset params newInstance = State.reset := by decide

/-- V-R3: `y` survives a reset, and is cleared under RESET_CLEARS_Y. -/
theorem test_reset_keeps_y :
    (applyReset params (small 0x1234#16 [] (a := 0x12#8) (y := 0x33#8) (p := 0xFF#8))).y = 0x33#8 ∧
      (applyReset params (small 0x1234#16 [] (a := 0x12#8) (y := 0x33#8) (p := 0xFF#8))).p = 0x00#8 ∧
      (applyReset { params with resetClearsY := true } (small 0x1234#16 [] (y := 0x33#8))).y = 0x00#8 := by decide

/-- W4, V-M4: `load` of an empty program still writes the vector, and `reset()` enters at it. -/
theorem test_load_then_reset :
    (match load [] newInstance with
      | .next t => (t.mem, (applyReset params t).pc)
      | .fault _ => ([], 0#16)
      | .refused _ => ([], 0#16)) = ([(0xFFFD, 0x80#8)], 0x8000#16) := by decide

/-- W6: the source's first scenario, bytes A9 05 00, through `load_and_run` with a bound of 3 steps. -/
theorem test_load_and_run :
    (match loadAndRunBounded params catalog 3 [0xA9#8, 0x05#8, 0x00#8] newInstance with
      | .next (t, e) => some (t.a, t.p, t.pc, e)
      | .fault _ => none
      | .refused _ => none) = some (0x05#8, 0x00#8, 0x8003#16, .halted) := by decide

/-- R65: a run with a duplicate byte is refused, with no step left to take and in Faulted too. -/
theorem test_run_refuses_duplicate :
    runBounded params [⟨0xE8#8, .incrementX, 2, .implied⟩, ⟨0xE8#8, .halt, 7, .implied⟩] 0 (small 0#16 [0xE8#8]) =
        .refused .duplicateOpcode ∧
      runBounded params [⟨0xE8#8, .incrementX, 2, .implied⟩, ⟨0xE8#8, .halt, 7, .implied⟩] 1
        (small 0x8002#16 [0x02#8]).takeDecodeFault = .refused .duplicateOpcode := ⟨rfl, rfl⟩

/-- R74's examples. -/
theorem test_asm :
    asmText (.loadAImmediate 0x05#8) = "LDA #$05" ∧ asmText (.loadAZeroPageX 0x80#8) = "LDA $80,X" ∧
      asmText (.storeAAbsoluteY 0x1234#16) = "STA $1234,Y" ∧ asmText (.loadAIndirectX 0xFE#8) = "LDA ($FE,X)" ∧
      asmText (.storeAIndirectY 0x50#8) = "STA ($50),Y" ∧ asmText .halt = "BRK" := by decide

/-- The host's two questions on a row: the decoder gives it, and step runs it first after reset. -/
theorem test_with_fetch_word :
    (State.reset.withFetchWord 16 0x05A9).fetchInstr = some (.loadAImmediate 0x05#8) ∧
      afterStep (State.reset.withFetchWord 16 0x05A9) (fun t => (t.a, t.pc)) = some (0x05#8, 0x0002#16) := by
  decide

/-! ## Witnesses: states and operands that meet the hypotheses of each statement -/

/-- INX at 0x0000: Running, decodes, steps to a Running state. -/
def wInx : State := small 0x0000#16 [0xE8#8]

theorem test_wInx_steps :
    wInx.mode = .running ∧ step wInx = .next { wInx with pc := 0x0001#16, x := 0x01#8 } :=
  ⟨rfl, rfl⟩

theorem test_wInx_inv : wInx.Inv := ⟨by decide, by decide, by decide, by decide⟩

/-- StepRunsDecodedInstruction. -/
theorem test_witness_step_runs :
    wInx.mode = .running ∧ decode wInx.fetchBytes = .ok .incrementX [0x00#8, 0x00#8] ∧ Instr.incrementX.wf = true := by
  decide

/-- EncodeOfDecode. -/
theorem test_witness_encode_of_decode :
    decode [0xAD#8, 0x00#8, 0x30#8, 0x07#8] = .ok (.loadAAbsolute 0x3000#16) [0x07#8] := by decide

/-- DecoderRejectsUnlistedBytes: both sides occur. -/
theorem test_witness_rejects :
    decode [0x02#8, 0#8, 0#8] = .illegalOpcode 0x02#8 ∧ decode [0xE8#8, 0#8, 0#8] ≠ .illegalOpcode 0xE8#8 := by decide

/-- OpcodeByteSelectsInstruction: each of the 28 clauses. -/
theorem test_witness_opcodes :
    ∀ r ∈ catalog, (small 0xFFFE#16 [r.hex]).mode = .running ∧ (small 0xFFFE#16 [r.hex]).mem.read 0xFFFE#16 = r.hex := by
  decide

/-- OperandsWrapPastTopOfMemory. -/
theorem test_witness_wrap :
    (small 0xFFFF#16 [0xAD#8, 0x34#8, 0x12#8]).mode = .running ∧
      (small 0xFFFF#16 [0xAD#8, 0x34#8, 0x12#8]).mem.read 0xFFFF#16 = 0xAD#8 := by decide

/-- LoadAImmediateRule, with the opcode at 0xFFFF. -/
theorem test_witness_loadAImmediate :
    (small 0xFFFF#16 [0xA9#8, 0x80#8]).mode = .running ∧ (small 0xFFFF#16 [0xA9#8, 0x80#8]).mem.read 0xFFFF#16 = 0xA9#8 := by
  decide

/-- StoreFlagsParameter: each byte, and both values of the parameter. -/
theorem test_witness_store_flags :
    (∀ op ∈ ([0x85, 0x95, 0x8D, 0x9D, 0x99, 0x81, 0x91] : List Byte),
      (small 0x8000#16 [op]).mem.read 0x8000#16 = op) ∧
    params.storeSetsFlags = true ∧ ({ params with storeSetsFlags := false } : Params).storeSetsFlags = false := by decide

/-- StatusByteIsNeverRead: `p` left alone (Halt), and Z written over a reserved bit kept (INX at 0xFF). -/
theorem test_witness_status :
    afterStep (small 0x8000#16 [0x00#8] (p := 0xFF#8)) State.p = some 0xFF#8 ∧
      afterStep (small 0x8000#16 [0xE8#8] (x := 0xFF#8) (p := 0x81#8)) State.p = some 0x03#8 := by decide

/-- ResolverPointerModes: each clause's parameters, and the offsets at which the sign clauses meet. -/
theorem test_witness_pointers :
    params.indxHiWrap = .zeroPage ∧ ({ params with indxHiWrap := .linear } : Params).indxHiWrap = .linear ∧
    params.indyHiWrap = .zeroPage ∧ ({ params with indyHiWrap := .linear } : Params).indyHiWrap = .linear ∧
    params.relBase = .operandAddress ∧ params.relExt = .sign ∧
    ({ params with relBase := .nextInstruction, relExt := .zero } : Params).relBase = .nextInstruction ∧
    ({ params with relExt := .zero } : Params).relExt = .zero ∧
    (Memory.read [(0x8001, 0x7F#8)] 0x8001#16).toNat < 128 ∧ 128 ≤ (Memory.read [(0x8001, 0x80#8)] 0x8001#16).toNat ∧
    resolve params .relative 0x8001#16 0#8 0#8 [(0x8001, 0x7F#8)] = (some 0x8080#16, 0x8002#16) ∧
    resolve params .relative 0x8001#16 0#8 0#8 [(0x8001, 0x80#8)] = (some 0x7F81#16, 0x8002#16) := by decide

/-- MemoryIsItsBytes. -/
theorem test_witness_memory :
    Memory.wf [(3, 0x07#8), (0xFFFF, 0x01#8)] = true ∧
      ∀ b, Memory.read [(3, 0x07#8), (0xFFFF, 0x01#8)] b = Memory.read [(3, 0x07#8), (0xFFFF, 0x01#8)] b :=
  ⟨by decide, fun _ => rfl⟩

/-- StepKeepsInvariant, RunningBlockAlwaysSteps, OnlyListedOpcodesWrite, CounterAdvancesByLength,
StatusByteIsNeverRead, RunFollowsStep (Running): `wInx`. -/
theorem test_witness_step : wInx.Inv ∧ wInx.mode = .running ∧ ∃ t, step wInx = .next t ∧ t.mode = .running :=
  ⟨test_wInx_inv, rfl, _, rfl, rfl⟩

/-- HostOperationsKeepInvariant: the premise, and a `load` that is not refused. -/
theorem test_witness_host : wInx.Inv ∧ ∃ t, load [0xE8#8] wInx 0xFFFF#16 = .next t := ⟨test_wInx_inv, _, rfl⟩

/-- DecodeFaultRule, and RunFollowsStep (Faulted). -/
theorem test_witness_decode_fault :
    (small 0x8002#16 [0x02#8]).mode = .running ∧ lookup catalog ((small 0x8002#16 [0x02#8]).mem.read 0x8002#16) = none ∧
      afterStep (small 0x8002#16 [0x02#8]) State.mode = some .faulted := by decide

/-- StoppedBlockTakesNoStep: both clauses, and a catalog that is not refused. -/
theorem test_witness_stopped :
    (small 0x8002#16 [0x02#8]).takeDecodeFault.mode = .faulted ∧
      (small 0x8002#16 [0x02#8]).takeDecodeFault.fault = some (.decodeFault 0x02#8 0x8002#16) ∧
      newInstance.mode = .halted ∧ uniqueBytes catalog = true := by decide

/-- OnlyListedOpcodesWrite: each kind of write occurs. -/
theorem test_witness_writes :
    afterStep (small 0x8000#16 [0xA9#8, 0x01#8]) State.a = some 0x01#8 ∧
      afterStep (small 0x8000#16 [0xE8#8]) State.x = some 0x01#8 ∧
      afterStep (small 0x8000#16 [0xA0#8, 0x01#8]) State.y = some 0x01#8 ∧
      afterStep (small 0x8000#16 [0x85#8, 0x10#8] (a := 0x80#8)) (fun t => (t.mem.read 0x0010#16, t.p)) = some (0x80#8, 0x80#8) := by
  decide

/-- StoreIsSeenByNextFetch. -/
theorem test_witness_self_modifying :
    (small 0x8002#16 [0x8D#8, 0x05#8, 0x80#8]).mode = .running ∧
      (small 0x8002#16 [0x8D#8, 0x05#8, 0x80#8]).fetchInstr = some (.storeAAbsolute (0x8002#16 + 3#16)) := by decide

/-- WellFormedCatalogNeverResolutionFaults. -/
theorem test_witness_catalog : catalog.all OpcodeRecord.wf = true ∧ State.reset.fault = none := by decide

/-- IllFormedRowRaisesResolutionFault. -/
theorem test_witness_bad_row :
    lookup [⟨0x89#8, .storeA, 2, .accumulator⟩] ((small 0x8000#16 [0x89#8]).mem.read 0x8000#16) =
        some ⟨0x89#8, .storeA, 2, .accumulator⟩ ∧
      Mnemonic.storeA.needsAddress = true ∧ AddrMode.accumulator.givesAddress = false := by decide

/-- CatalogLookupIsUnique: both clauses. -/
theorem test_witness_unique :
    uniqueBytes catalog = true ∧ uniqueBytes (catalog ++ [⟨0xA9#8, .loadX, 2, .immediate⟩]) = false := by decide

/-- LoadRule at the largest image allowed, and LoadPastTopIsRefused at the smallest refused (V-M5's edge). -/
theorem test_witness_load :
    (0xFFFF#16 : Word).toNat + ([0xE8#8] : List Byte).length ≤ 65536 ∧
      65536 < (0xFFFF#16 : Word).toNat + ([0xE8#8, 0x00#8] : List Byte).length ∧
      (0x8000#16 : Word).toNat + ([0xA9#8, 0x05#8] : List Byte).length ≤ 65536 := by decide

/-- LoadThenResetEntersOrigin. -/
theorem test_witness_load_reset : ∃ t, load [0xA9#8, 0x05#8] wInx = .next t := ⟨_, rfl⟩

/-- ResetRule: both values of RESET_CLEARS_Y. -/
theorem test_witness_reset :
    params.resetClearsY = false ∧ ({ params with resetClearsY := true } : Params).resetClearsY = true := by decide

/-- RunFollowsStep (Halted): a Halt; RunEndIsUnique: its run ends. -/
theorem test_witness_run_end : RunEnds params catalog State.reset { State.reset with pc := 0x0001#16, mode := .halted } .halted :=
  ⟨by decide, 1, rfl⟩

theorem test_witness_halt_step : State.reset.mode = .running ∧ afterStep State.reset State.mode = some .halted := by decide

/-- A listed stretch of one byte reads as that byte at every address of the stretch. -/
theorem lookup_stretch (v : Byte) (n k : Nat) :
    ∀ a, a ≤ k → k < a + n → Memory.lookup ((List.range' a n).map fun j => (j, v)) k = v := by
  induction n with
  | zero => intro a h1 h2; omega
  | succ n ih =>
    intro a h1 h2
    rw [List.range'_succ, List.map_cons, Memory.lookup]
    split
    · rfl
    · next h => exact ih (a + 1) (by simp only at h; omega) (by omega)

/-- RunMayNeverEnd: memory that is INX everywhere. -/
theorem test_witness_endless :
    ∃ s : State, s.mode = .running ∧ ∀ b, s.mem.read b = 0xAA#8 ∨ s.mem.read b = 0xE8#8 :=
  ⟨{ State.reset with mem := (List.range' 0 65536).map fun j => (j, 0xE8#8) }, rfl,
    fun b => .inr (lookup_stretch 0xE8#8 65536 b.toNat 0 (Nat.zero_le _) (by simpa using b.isLt))⟩

end Sys2Proof.Tests
end

section
/-! The catalog lookup, and what the fetched instruction is: its row, and its operand read at `pc + 1`. -/

namespace Sys2Proof

/-- A byte has no row exactly when no row of the catalog lists it (R66). -/
theorem lookup_eq_none_iff (cat : List OpcodeRecord) (op : Byte) :
    lookup cat op = none ↔ op ∉ cat.map OpcodeRecord.hex := by
  simp [lookup, List.find?_eq_none]

/-- The byte 00 is Halt's alone (R123). -/
theorem Instr.opcode_eq_zero_iff (i : Instr) : i.opcode = 0x00#8 ↔ i.mnemonic = .halt := by
  cases i <;> simp [Instr.opcode, Instr.mnemonic, Instr.shape]

end Sys2Proof

namespace Sys2Proof.Machine

/-- The operand a mode takes from the bytes after the opcode, as the resolver reads them (R60, R61). -/
def State.operandAt (m : AddrMode) (s : State) : Operand :=
  match m.byteCount with
  | 0 => .none
  | 1 => .byte (s.mem.read (s.pc + 1#16))
  | _ => .word (s.mem.read16 (s.pc + 1#16))

/-- The decoder's operand word, from the second and third byte fetched, is the resolver's `read16` at the
first operand byte. -/
theorem State.read16_operand (s : State) :
    s.mem.read16 (s.pc + 1#16) = joinBytes (s.mem.read (s.pc + 2#16)) (s.mem.read (s.pc + 1#16)) := by
  rw [Memory.read16, BitVec.add_assoc]
  rfl

/-- The instruction fetched is of the row of the byte at `pc`, with the operand the resolver reads. -/
theorem row_of_fetchInstr {s : State} {i : Instr} (h : s.fetchInstr = some i) :
    ∃ r, lookup catalog (s.mem.read s.pc) = some r ∧ i.mnemonic = r.mnemonic ∧ i.mode = r.mode ∧
      i.opcode = s.mem.read s.pc ∧ i.operand = s.operandAt i.mode := by
  obtain ⟨r, -, hr, -⟩ | ⟨-, hn⟩ := fetchInstr_cases s
  · obtain ⟨j, rest, hd, hmn, hm, hop, ho⟩ :=
      decode_of_row hr (s.mem.read (s.pc + 1#16)) (s.mem.read (s.pc + 2#16)) []
    have hij : j = i := by simpa [State.fetchInstr, State.fetchBytes, hd, DecodeResult.toInstr] using h
    subst hij
    refine ⟨r, hr, hmn, hm, hop, ?_⟩
    rw [hm, State.operandAt, State.read16_operand]
    exact ho
  · simp [hn] at h

/-- Nothing is fetched exactly when the byte at `pc` has no row (R126). -/
theorem fetchInstr_eq_none_iff (s : State) :
    s.fetchInstr = none ↔ lookup catalog (s.mem.read s.pc) = none := by
  obtain ⟨r, i, hr, hi, -⟩ | ⟨hr, hi⟩ := fetchInstr_cases s
  · simp [hr, hi]
  · simp [hr, hi]

end Sys2Proof.Machine
end

section
/-! The block's units and the decoded machine, one equation per way a step can go (R124). -/

namespace Sys2Proof.Machine

open Sys2Proof.Config

/-- A checked block that is not Running answers as the decoded machine does (R132). -/
theorem blockOutcome_stopped {cat : List OpcodeRecord} (c : Params) (h : uniqueBytes cat = true) {s : State}
    (hm : s.mode ≠ .running) : blockOutcome c cat s = stepStopped s := by
  rw [blockOutcome, withCatalog_of_unique h]
  cases hs : s.mode with
  | running => exact absurd hs hm
  | halted => rfl
  | faulted => rfl

/-- A byte with no row makes the block take the decode fault (R126, R141). -/
theorem blockStep_of_no_row (c : Params) {cat : List OpcodeRecord} {s : State}
    (h : lookup cat (s.mem.read s.pc) = none) : blockStep c cat s = s.takeDecodeFault := by
  simp only [blockStep, fetch, h]
  rfl

/-- A byte with a row whose alu answers makes the block commit that answer, `pc` past the instruction (R124). -/
theorem blockStep_of_row {c : Params} {cat : List OpcodeRecord} {s : State} {r : OpcodeRecord} {out : AluOut}
    (h : lookup cat (s.mem.read s.pc) = some r)
    (ha : alu c r.mnemonic (resolveEa c r.mode (s.pc + 1#16) s.x s.y s.mem) s.a s.x s.mem = some out) :
    blockStep c cat s = commit out (s.pastInstr r.mode) := by
  simp only [blockStep, fetch, resolve, h, ha, pastInstr_eq_fetch_then_resolve]

/-- The refinement instruction by instruction: when the operand is the one at `pc + 1`, the meaning of the
instruction is the commit of what the alu answers for the address the resolver gives. An immediate load is
the case where the resolver's address is the operand's own (log entry 10). -/
theorem exec_eq_commit_alu (i : Instr) (s : State) (h : i.operand = s.operandAt i.mode) :
    ∃ out, alu params i.mnemonic (resolveEa params i.mode (s.pc + 1#16) s.x s.y s.mem) s.a s.x s.mem = some out ∧
      exec i s = .next (commit out (s.pastInstr i.mode)) := by
  cases i with
  | halt | transferAtoX | incrementX => exact ⟨_, rfl, rfl⟩
  | loadAImmediate | loadAZeroPage | loadAZeroPageX | loadAIndirectX | loadAIndirectY
  | loadXImmediate | loadXZeroPage | loadXZeroPageY
  | loadYImmediate | loadYZeroPage | loadYZeroPageX
  | storeAZeroPage | storeAZeroPageX | storeAIndirectX | storeAIndirectY =>
    cases Operand.byte.inj h
    exact ⟨_, rfl, rfl⟩
  | loadAAbsolute | loadAAbsoluteX | loadAAbsoluteY | loadXAbsolute | loadXAbsoluteY
  | loadYAbsolute | loadYAbsoluteX | storeAAbsolute | storeAAbsoluteX | storeAAbsoluteY =>
    cases Operand.word.inj h
    exact ⟨_, rfl, rfl⟩

/-- Settles O2, by what the step does: an instruction fetched, a decode fault, or no step at all. -/
theorem stepMatchesBlockUnits : Obligations.StepMatchesBlockUnits := by
  intro s
  obtain ⟨hrun, i, hi, hstep⟩ | ⟨hrun, hnone, hstep⟩ | ⟨hstop, hstep⟩ := step_cases s
  · obtain ⟨r, hr, hmn, hm, -, ho⟩ := row_of_fetchInstr hi
    obtain ⟨out, halu, hexec⟩ := exec_eq_commit_alu i s ho
    rw [hmn, hm] at halu
    rw [hstep, hexec, hm, blockOutcome_running params uniqueBytes_catalog hrun, blockStep_of_row hr halu]
  · have hr := (fetchInstr_eq_none_iff s).mp hnone
    rw [hstep, blockOutcome_running params uniqueBytes_catalog hrun, blockStep_of_no_row params hr]
  · rw [hstep, blockOutcome_stopped params uniqueBytes_catalog hstop]

end Sys2Proof.Machine
end

section
/-! The flag unit's function, and the mode a step of a Running block leaves. -/

namespace Sys2Proof.Machine

/-- Bit 7 of a byte in numbers. -/
theorem getLsbD_seven (v : Byte) : v.getLsbD 7 = decide (128 ≤ v.toNat) := by
  rw [← BitVec.msb_eq_decide (w := 8)]
  exact (BitVec.msb_eq_getLsbD_last v).symm

/-- A status byte whose mask 0x82 is full has both Z and N set. -/
theorem both_flags_of_mask {q : Byte} (h : q &&& 0x82#8 = 0x82#8) : zFlag q = true ∧ nFlag q = true := by
  have hbit (k : Nat) : (q &&& 0x82#8).getLsbD k = (0x82#8).getLsbD k := by rw [h]
  exact ⟨by simpa [zFlag] using hbit 1, by simpa [nFlag] using hbit 7⟩

/-- Settles O19, from the flag unit's answer bit by bit. -/
theorem flagUnitRule : Obligations.FlagUnitRule := by
  intro p v
  obtain ⟨hzero, hnegative, hrest⟩ := flagsFrom_flags p v
  refine ⟨hzero, hnegative.trans (getLsbD_seven v), hrest, ?_⟩
  exact fun h => flags_not_both p v (both_flags_of_mask h)

/-- An instruction answers a next state, Halted after Halt and in the mode it started in after every other
(R130). -/
theorem exec_next_mode (i : Instr) (s : State) :
    ∃ t, exec i s = .next t ∧ t.mode = if i.mnemonic = .halt then .halted else s.mode := by
  obtain ⟨r, v, hd, he⟩ | ⟨ea, hs, he⟩ | ⟨hh, he⟩ := exec_cases i s
  · have hne : i.mnemonic ≠ .halt := fun hh => by simp [hh, destReg] at hd
    exact ⟨_, he, by simp [loadValue, hne]⟩
  · exact ⟨_, he, by simp [storeA_params, hs]⟩
  · exact ⟨_, he, by simp [hh]⟩

/-- Settles O28: a fetched instruction leaves the block Running or Halted, by its byte; a byte with no row
leaves it Faulted. -/
theorem runningBlockAlwaysSteps : Obligations.RunningBlockAlwaysSteps := by
  intro s hrun
  have hlisted := lookup_eq_none_iff catalog (s.mem.read s.pc)
  obtain ⟨-, i, hi, hstep⟩ | ⟨-, hnone, hstep⟩ | ⟨hstop, -⟩ := step_cases s
  · obtain ⟨r, hr, -, -, hop, -⟩ := row_of_fetchInstr hi
    obtain ⟨t, ht, hmode⟩ := exec_next_mode i s
    have hhalt : t.mode = .halted ↔ s.mem.read s.pc = 0x00#8 := by
      rw [← hop, Instr.opcode_eq_zero_iff, hmode, hrun]
      split <;> simp [*]
    have hnofault : t.mode ≠ .faulted := by
      rw [hmode, hrun]
      split <;> simp
    have hrow : lookup catalog (s.mem.read s.pc) ≠ none := by simp [hr]
    exact ⟨t, hstep.trans ht, hhalt, iff_of_false hnofault fun hn => hrow (hlisted.mpr hn)⟩
  · have hunlisted := hlisted.mp ((fetchInstr_eq_none_iff s).mp hnone)
    have hne : s.mem.read s.pc ≠ 0x00#8 := fun h0 => hunlisted (h0 ▸ by decide)
    exact ⟨_, hstep, iff_of_false (by simp) hne, iff_of_true rfl hunlisted⟩
  · exact absurd hrun hstop

end Sys2Proof.Machine
end

section
/-! Canonical memory is determined by what it reads: its entries are exactly its non-zero bytes, in order. -/

namespace Sys2Proof.Machine

/-- The entries of a canonical memory are its non-zero bytes, each under its own key (R36). -/
theorem Memory.mem_iff_lookup {m : Memory} (h : m.wf = true) (k : Nat) (v : Byte) :
    (k, v) ∈ m ↔ v ≠ 0x00#8 ∧ m.lookup k = v := by
  induction m with
  | nil => simpa [Memory.lookup] using fun hv h0 => hv h0.symm
  | cons c m ih =>
    obtain ⟨-, hnonzero, hrising, htail⟩ := (Memory.wf_cons c m).mp h
    rw [List.mem_cons, ih htail, Memory.lookup]
    by_cases hk : c.1 = k
    · have hnot : ¬(v ≠ 0x00#8 ∧ Memory.lookup m k = v) := fun hm =>
        absurd (hrising _ ((ih htail).mpr hm)) (by simp [hk])
      rw [or_iff_left hnot, if_pos hk]
      constructor
      · rintro rfl
        exact ⟨hnonzero, rfl⟩
      · exact fun ⟨_, hv⟩ => Prod.ext hk.symm hv.symm
    · have hne : (k, v) ≠ c := fun e => hk (e ▸ rfl)
      simp [hk, hne]

/-- Every key of a canonical memory is an address (R36). -/
theorem Memory.key_lt_of_mem {m : Memory} (h : m.wf = true) {c : Host.Cell} (hc : c ∈ m) :
    c.1 < Config.memSize := by
  induction m with
  | nil => simp at hc
  | cons d m ih =>
    obtain ⟨hlt, -, -, htail⟩ := (Memory.wf_cons d m).mp h
    rcases List.mem_cons.mp hc with rfl | hm
    · exact hlt
    · exact ih htail hm

/-- The entries of a canonical memory, by the bytes read at the 16-bit addresses (R36, R40). -/
theorem Memory.mem_iff_read {m : Memory} (h : m.wf = true) (c : Host.Cell) :
    c ∈ m ↔ ∃ b : Word, c = (b.toNat, m.read b) ∧ m.read b ≠ 0x00#8 := by
  constructor
  · intro hc
    obtain ⟨hnonzero, hread⟩ := (Memory.mem_iff_lookup h c.1 c.2).mp hc
    have hkey : (BitVec.ofNat 16 c.1).toNat = c.1 := Nat.mod_eq_of_lt (Memory.key_lt_of_mem h hc)
    refine ⟨BitVec.ofNat 16 c.1, ?_⟩
    rw [Memory.read, hkey, hread]
    exact ⟨rfl, hnonzero⟩
  · rintro ⟨b, rfl, hnonzero⟩
    exact (Memory.mem_iff_lookup h _ _).mpr ⟨hnonzero, rfl⟩

/-- The keys of a canonical memory rise along the list. -/
theorem Memory.pairwise_of_wf {m : Memory} (h : m.wf = true) : m.Pairwise fun c d => c.1 < d.1 := by
  induction m with
  | nil => exact .nil
  | cons c m ih =>
    obtain ⟨-, -, hrising, htail⟩ := (Memory.wf_cons c m).mp h
    exact .cons hrising (ih htail)

/-- Settles O24: two rising lists with the same entries are equal, and the bytes read give the entries. -/
theorem memoryIsItsBytes : Obligations.MemoryIsItsBytes := by
  intro m n hm hn hread
  have : Std.Irrefl fun c d : Host.Cell => c.1 < d.1 := ⟨fun c => Nat.lt_irrefl c.1⟩
  have : Std.Antisymm fun c d : Host.Cell => c.1 < d.1 := ⟨fun _ _ hcd hdc => absurd hcd hdc.asymm⟩
  refine (Memory.pairwise_of_wf hm).eq_of_mem_iff (Memory.pairwise_of_wf hn) fun c => ?_
  simp only [Memory.mem_iff_read hm, Memory.mem_iff_read hn, hread]

end Sys2Proof.Machine
end

section
/-! The one inversion of a step that answers a next state: the row of the byte at `pc` says which of the
four updates it is. -/

namespace Sys2Proof.Machine

/-- A step that answers a next state is a Running block's: by the row of the byte at `pc` it is the load
handler, the store handler or Halt, and with no row the decode fault (R124-R130). -/
theorem step_next_cases {s t : State} (h : step s = .next t) : s.mode = .running ∧
    ((∃ r ∈ catalog, r.hex = s.mem.read s.pc ∧
      ((∃ q v, destReg r.mnemonic = some q ∧ t = loadValue q v (s.pastInstr r.mode)) ∨
       (∃ ea, r.mnemonic = .storeA ∧ t = storeA params ea (s.pastInstr r.mode)) ∨
       (r.mnemonic = .halt ∧ t = (s.pastInstr r.mode).toHalted))) ∨
     (s.mem.read s.pc ∉ catalog.map OpcodeRecord.hex ∧ t = s.takeDecodeFault)) := by
  obtain ⟨hrun, i, hi, hstep⟩ | ⟨hrun, hnone, hstep⟩ | ⟨-, hstep⟩ := step_cases s
  · obtain ⟨r, hr, hmn, hm, -, -⟩ := row_of_fetchInstr hi
    obtain ⟨hmem, hhex⟩ := lookup_some hr
    refine ⟨hrun, .inl ⟨r, hmem, hhex, ?_⟩⟩
    simpa [← hstep, h, hmn, hm] using exec_cases i s
  · exact ⟨hrun, .inr ⟨(lookup_eq_none_iff _ _).mp ((fetchInstr_eq_none_iff s).mp hnone),
      by simpa [hstep] using h.symm⟩⟩
  · exact absurd (hstep.symm.trans h) (stepStopped_not_next s t)

end Sys2Proof.Machine
end

section
/-! The invariant, update by update: what a step does, and what the host does between steps. -/

namespace Sys2Proof.Machine

/-- The invariant speaks of memory, the mode, the fault record and the status byte only. -/
theorem State.Inv.congr {s t : State} (h : s.Inv) (hmem : t.mem.wf = true) (hmode : t.mode = s.mode)
    (hfault : t.fault = s.fault) (hp : t.p = s.p) : t.Inv where
  mem := hmem
  fault := by rw [hfault, hmode]; exact h.fault
  reserved := by rw [hp]; exact h.reserved
  zeroOrNegative := by rw [hp]; exact h.zeroOrNegative

/-- A register write keeps the invariant. -/
theorem State.Inv.setReg {s : State} (h : s.Inv) (r : Reg) (v : Byte) : (s.setReg r v).Inv :=
  h.congr (by simpa using h.mem) (by simp) (by simp) (by simp)

/-- A byte write keeps the invariant (R36, R41). -/
theorem State.Inv.store {s : State} (h : s.Inv) (ea : Word) (v : Byte) : (s.store ea v).Inv :=
  h.congr (Memory.wf_write _ _ _ h.mem) rfl rfl rfl

/-- Moving `pc` past an instruction keeps the invariant. -/
theorem State.Inv.pastInstr {s : State} (h : s.Inv) (m : AddrMode) : (s.pastInstr m).Inv :=
  h.congr h.mem rfl rfl rfl

/-- The flag unit keeps the invariant (R30, R31). -/
theorem State.Inv.updateFlags {s : State} (h : s.Inv) (v : Byte) : (s.updateFlags v).Inv where
  mem := h.mem
  fault := h.fault
  reserved := (flags_reserved s.p v).trans h.reserved
  zeroOrNegative := flags_not_both s.p v

/-- Halting a Running block keeps the invariant: it had no fault record, and still has none. -/
theorem State.Inv.toHalted {s : State} (h : s.Inv) (hrun : s.mode = .running) : s.toHalted.Inv where
  mem := h.mem
  fault := by simpa [hrun] using h.fault
  reserved := h.reserved
  zeroOrNegative := h.zeroOrNegative

/-- The decode fault keeps the invariant: it sets the mode and the record together (R141, R144). -/
theorem State.Inv.takeDecodeFault {s : State} (h : s.Inv) : s.takeDecodeFault.Inv where
  mem := h.mem
  fault := by simp
  reserved := h.reserved
  zeroOrNegative := h.zeroOrNegative

/-- Settles O25: each of the four updates a step can be keeps the invariant. -/
theorem stepKeepsInvariant : Obligations.StepKeepsInvariant := by
  intro s t hinv hstep
  obtain ⟨hrun, ⟨r, -, -, ⟨q, v, -, rfl⟩ | ⟨ea, -, rfl⟩ | ⟨-, rfl⟩⟩ | ⟨-, rfl⟩⟩ := step_next_cases hstep
  · exact ((hinv.pastInstr r.mode).setReg q v).updateFlags v
  · exact ((hinv.pastInstr r.mode).store ea _).updateFlags _
  · exact (hinv.pastInstr r.mode).toHalted hrun
  · exact hinv.takeDecodeFault

/-- A status byte is its reserved bits, its Z and its N (R27-R30). -/
theorem status_ext {p q : Byte} (hreserved : p &&& 0x7D#8 = q &&& 0x7D#8) (hz : zFlag p = zFlag q)
    (hn : nFlag p = nFlag q) : p = q := by
  apply BitVec.eq_of_getLsbD_eq
  intro k hk
  have hbit : (p &&& 0x7D#8).getLsbD k = (q &&& 0x7D#8).getLsbD k := by rw [hreserved]
  have hmask : ∀ k < 8, k ≠ 1 → k ≠ 7 → (0x7D#8).getLsbD k = true := by decide
  by_cases h1 : k = 1
  · exact h1 ▸ hz
  · by_cases h7 : k = 7
    · exact h7 ▸ hn
    · simpa [hmask k hk h1 h7] using hbit

/-- The status bytes the invariant allows are three: neither flag, Z alone, N alone (R30, R31). -/
theorem status_mem_iff (v : Byte) : v ∈ ([0x00, 0x02, 0x80] : List Byte) ↔
    v &&& 0x7D#8 = 0x00#8 ∧ ¬(zFlag v = true ∧ nFlag v = true) := by
  constructor
  · simp only [List.mem_cons, List.not_mem_nil, or_false]
    rintro (rfl | rfl | rfl) <;> decide
  · rintro ⟨hreserved, hnot⟩
    have hv (q : Byte) (hq : q &&& 0x7D#8 = 0x00#8) : zFlag v = zFlag q → nFlag v = nFlag q → v = q :=
      status_ext (hreserved.trans hq.symm)
    cases hz : zFlag v <;> cases hn : nFlag v
    · simp [hv 0x00#8 (by decide) hz hn]
    · simp [hv 0x80#8 (by decide) hz hn]
    · simp [hv 0x02#8 (by decide) hz hn]
    · exact absurd ⟨hz, hn⟩ hnot

/-- `reset()` keeps the invariant: it clears the status byte and the fault record (R154). -/
theorem State.Inv.applyReset {s : State} (h : s.Inv) (c : Config.Params) : (applyReset c s).Inv where
  mem := h.mem
  fault := by simp
  reserved := by simp
  zeroOrNegative := by simp [zFlag]

/-- A `load` that is not refused keeps the invariant: it writes memory only (R56). -/
theorem State.Inv.load {s t : State} (h : s.Inv) {bytes : List Byte} {origin : Word}
    (ht : load bytes s origin = .next t) : t.Inv := by
  unfold Machine.load at ht
  split at ht
  · cases ht
    exact h.congr (Memory.wf_write16 _ _ _ (Memory.wf_writeBytes _ _ _ h.mem)) rfl rfl rfl
  · cases ht

/-- A host write of `p` keeps the invariant exactly when the byte written is one it allows (R30, R31). -/
theorem State.Inv.hostWriteP_iff {s : State} (h : s.Inv) (v : Byte) :
    (hostWriteP v s).Inv ↔ v ∈ ([0x00, 0x02, 0x80] : List Byte) := by
  rw [status_mem_iff]
  exact ⟨fun hi => ⟨hi.reserved, hi.zeroOrNegative⟩, fun hv => ⟨h.mem, h.fault, hv.1, hv.2⟩⟩

/-- Settles O27, operation by operation. -/
theorem hostOperationsKeepInvariant : Obligations.HostOperationsKeepInvariant := by
  intro s hinv
  exact ⟨hinv.applyReset, fun _ _ _ ht => hinv.load ht, hinv.store,
    fun a d => hinv.congr (Memory.wf_write16 _ a d hinv.mem) rfl rfl rfl, hinv.setReg,
    fun _ => hinv.congr hinv.mem rfl rfl rfl, fun v => (hinv.hostWriteP_iff v).symm⟩

end Sys2Proof.Machine
end

section
/-! Who writes what in a step, and how far `pc` moves: by the row of the byte at `pc`. -/

namespace Sys2Proof.Machine

/-- A register changes only under a row whose mnemonic writes it (R23). -/
theorem row_of_reg_change {s t : State} (h : step s = .next t) {q : Reg} (hq : t.reg q ≠ s.reg q) :
    ∃ r ∈ catalog, r.hex = s.mem.read s.pc ∧ destReg r.mnemonic = some q := by
  obtain ⟨-, ⟨r, hr, hop, ⟨q', v, hd, rfl⟩ | ⟨ea, -, rfl⟩ | ⟨-, rfl⟩⟩ | ⟨-, rfl⟩⟩ := step_next_cases h
  · have hsame : q = q' := by
      by_contra hne
      exact hq ((loadValue_effect q' v r.mode s rfl).others q hne)
    exact ⟨r, hr, hop, hsame ▸ hd⟩
  · exact absurd ((storeA_effect ea r.mode s rfl).regs q) hq
  · exact absurd (State.reg_congr rfl rfl rfl q) hq
  · exact absurd (State.reg_congr rfl rfl rfl q) hq

/-- Memory changes only under a StoreA row (R23). -/
theorem row_of_mem_change {s t : State} (h : step s = .next t) (hmem : t.mem ≠ s.mem) :
    ∃ r ∈ catalog, r.hex = s.mem.read s.pc ∧ r.mnemonic = .storeA := by
  obtain ⟨-, ⟨r, hr, hop, ⟨q, v, -, rfl⟩ | ⟨ea, hs, rfl⟩ | ⟨-, rfl⟩⟩ | ⟨-, rfl⟩⟩ := step_next_cases h
  · exact absurd (by simp [loadValue]) hmem
  · exact ⟨r, hr, hop, hs⟩
  · exact absurd rfl hmem
  · exact absurd rfl hmem

/-- The status byte changes only under a row other than Halt's (R23, R32). -/
theorem row_of_status_change {s t : State} (h : step s = .next t) (hp : t.p ≠ s.p) :
    ∃ r ∈ catalog, r.hex = s.mem.read s.pc ∧ r.mnemonic ≠ .halt := by
  obtain ⟨-, ⟨r, hr, hop, ⟨q, v, hd, -⟩ | ⟨ea, hs, -⟩ | ⟨-, rfl⟩⟩ | ⟨-, rfl⟩⟩ := step_next_cases h
  · exact ⟨r, hr, hop, fun hh => by simp [hh, destReg] at hd⟩
  · exact ⟨r, hr, hop, by simp [hs]⟩
  · exact absurd rfl hp
  · exact absurd rfl hp

/-- A byte with a row of a kind is in every list that has all the bytes of that kind. -/
theorem mem_of_row {P : OpcodeRecord → Prop} {l : List Byte} {op : Byte}
    (h : ∃ r ∈ catalog, r.hex = op ∧ P r) (hl : ∀ r ∈ catalog, P r → r.hex ∈ l) : op ∈ l := by
  obtain ⟨r, hr, rfl, hP⟩ := h
  exact hl r hr hP

/-- Settles O31: the row a write needs, looked up in the catalog's bytes. -/
theorem onlyListedOpcodesWrite : Obligations.OnlyListedOpcodesWrite := by
  intro s t _ hstep
  refine ⟨fun ha => ?_, fun hx => ?_, fun hy => ?_, fun hmem => ?_, fun hp => ?_⟩
  · exact mem_of_row (row_of_reg_change hstep (q := .a) ha) (by decide)
  · exact mem_of_row (row_of_reg_change hstep (q := .x) hx) (by decide)
  · exact mem_of_row (row_of_reg_change hstep (q := .y) hy) (by decide)
  · exact mem_of_row (row_of_mem_change hstep hmem) (by decide)
  · exact mem_of_row (row_of_status_change hstep hp) (by decide)

/-- `pc` moves past the instruction of the row of the byte at `pc`, and past the byte alone when it has no
row (R25, R126). -/
theorem pc_of_step {s t : State} (h : step s = .next t) :
    (∃ r ∈ catalog, r.hex = s.mem.read s.pc ∧ t.pc = s.pc + BitVec.ofNat 16 (1 + r.mode.byteCount)) ∨
    (s.mem.read s.pc ∉ catalog.map OpcodeRecord.hex ∧ t.pc = s.pc + 1#16) := by
  obtain ⟨-, ⟨r, hr, hop, hcases⟩ | ⟨hnone, rfl⟩⟩ := step_next_cases h
  · refine .inl ⟨r, hr, hop, ?_⟩
    obtain ⟨q, v, -, rfl⟩ | ⟨ea, -, rfl⟩ | ⟨-, rfl⟩ := hcases
    · exact (loadValue_effect q v r.mode s rfl).pc
    · exact (storeA_effect ea r.mode s rfl).pc
    · rfl
  · exact .inr ⟨hnone, rfl⟩

/-- Settles O32: the catalog's modes give the lengths of the lists, and a byte with no row is in neither
list. -/
theorem counterAdvancesByLength : Obligations.CounterAdvancesByLength := by
  intro s t _ hstep op three two
  have hlength : ∃ n, t.pc = s.pc + BitVec.ofNat 16 n ∧
      n = if op ∈ three then 3 else if op ∈ two then 2 else 1 := by
    obtain ⟨r, hr, hop, hpc⟩ | ⟨hnone, hpc⟩ := pc_of_step hstep
    · refine ⟨_, hpc, ?_⟩
      rw [show op = r.hex from hop.symm]
      have hrows : ∀ r ∈ catalog, 1 + r.mode.byteCount =
          if r.hex ∈ three then 3 else if r.hex ∈ two then 2 else 1 := by decide
      exact hrows r hr
    · have hthree : three ⊆ catalog.map OpcodeRecord.hex := by decide
      have htwo : two ⊆ catalog.map OpcodeRecord.hex := by decide
      exact ⟨1, hpc, by rw [if_neg fun h => hnone (hthree h), if_neg fun h => hnone (htwo h)]⟩
  obtain ⟨n, hpc, hn⟩ := hlength
  rw [← hn, hpc, BitVec.toNat_add, BitVec.toNat_ofNat, Nat.add_mod_mod]

end Sys2Proof.Machine
end

section
/-! The block's units and the status byte: the alu does not take it, and the store handler alone looks at
STORE_SETS_FLAGS. -/

namespace Sys2Proof.Machine

open Sys2Proof.Config

/-- Every row of the default catalog is well formed (R71). -/
theorem wf_of_mem_catalog : ∀ r ∈ catalog, r.wf = true := by decide

/-- The alu answers for every well-formed row (R71, R93). -/
theorem alu_answers_of_wf {r : OpcodeRecord} (h : r.wf = true) (c : Params) (pc : Word) (a x y : Byte)
    (mem : Memory) : ∃ out, alu c r.mnemonic (resolveEa c r.mode pc x y mem) a x mem = some out := by
  rw [← Option.ne_none_iff_exists', ne_eq, alu_eq_none_iff]
  rintro ⟨hneeds, hnone⟩
  have hgives := resolveEa_isSome c r.mode pc x y mem
  simp_all [OpcodeRecord.wf]

/-- The commit reads the status byte through the flag unit only: whatever it was, everything else committed
is the same (R28-R31). -/
theorem commit_with_status (out : AluOut) (s : State) (q : Byte) :
    commit out { s with p := q } = { commit out s with p := out.flagValue.elim q (flags q) } := by
  obtain ⟨_ | ⟨_ | _ | _, _⟩, _ | _, _ | _, _ | _⟩ := out <;> rfl

/-- A Running block at the defaults takes the block's step (R124). -/
theorem step_eq_blockStep {s : State} (hrun : s.mode = .running) :
    step s = .next (blockStep params catalog s) := by
  rw [stepMatchesBlockUnits s, blockOutcome_running params uniqueBytes_catalog hrun]

/-- What the block's step does to the status byte, whatever it was: there is one state and one flag-unit
value, if any, that do for every `p`. -/
theorem blockStep_with_status (c : Params) (s : State) : ∃ (t : State) (v : Option Byte), ∀ q : Byte,
    blockStep c catalog { s with p := q } = { t with p := v.elim q (flags q) } := by
  cases hr : lookup catalog (s.mem.read s.pc) with
  | none => exact ⟨s.takeDecodeFault, none, fun q => blockStep_of_no_row c hr⟩
  | some r =>
    obtain ⟨out, halu⟩ :=
      alu_answers_of_wf (wf_of_mem_catalog r (lookup_some hr).1) c (s.pc + 1#16) s.a s.x s.y s.mem
    exact ⟨commit out (s.pastInstr r.mode), out.flagValue, fun q =>
      (blockStep_of_row (s := { s with p := q }) hr halu).trans
        (commit_with_status out (s.pastInstr r.mode) q)⟩

/-- Settles O33: the flag unit is applied to the same value, or to none, whatever the status byte was. -/
theorem statusByteIsNeverRead : Obligations.StatusByteIsNeverRead := by
  intro s t hrun hstep
  obtain ⟨u, v, hany⟩ := blockStep_with_status params s
  have hq (q : Byte) : step { s with p := q } = .next { u with p := v.elim q (flags q) } := by
    rw [step_eq_blockStep (s := { s with p := q }) hrun, hany]
  obtain rfl : { u with p := v.elim s.p (flags s.p) } = t := by simpa [hstep] using (hq s.p).symm
  cases v with
  | none => exact .inl ⟨rfl, hq⟩
  | some v =>
    refine .inr ⟨flags_reserved s.p v, fun q => ?_⟩
    rw [hq q, Option.elim_some, Option.elim_some, flags_eq_reserved_or s.p q v]

/-- The block at a StoreA row with an address is the store handler (R113, R124). -/
theorem blockStep_of_store_row {c : Params} {cat : List OpcodeRecord} {s : State} {r : OpcodeRecord} {ea : Word}
    (hr : lookup cat (s.mem.read s.pc) = some r) (hs : r.mnemonic = .storeA)
    (hea : resolveEa c r.mode (s.pc + 1#16) s.x s.y s.mem = some ea) :
    blockStep c cat s = storeA c ea (s.pastInstr r.mode) := by
  rw [blockStep_of_row hr (by rw [hs, hea]; rfl)]
  unfold storeA commit
  cases c.storeSetsFlags <;> rfl

/-- The parameter decides the store handler's status byte (R113; log entry 1). -/
theorem storeA_p (c : Params) (ea : Word) (s : State) :
    (storeA c ea s).p = if c.storeSetsFlags then flags s.p s.a else s.p := by
  unfold storeA
  split <;> simp

/-- The parameter decides nothing else of the store handler (R113; log entry 1). -/
theorem storeA_eq_with_status (c d : Params) (ea : Word) (s : State) :
    storeA c ea s = { storeA d ea s with p := (storeA c ea s).p } := by
  unfold storeA
  cases c.storeSetsFlags <;> cases d.storeSetsFlags <;> rfl

/-- Every StoreA byte has a StoreA row whose mode gives an address (R67-R71; log entry 5). -/
theorem store_row_of_mem {op : Byte} (h : op ∈ ([0x85, 0x95, 0x8D, 0x9D, 0x99, 0x81, 0x91] : List Byte)) :
    ∃ r, lookup catalog op = some r ∧ r.mnemonic = .storeA ∧ r.mode.givesAddress = true := by
  simp only [List.mem_cons, List.not_mem_nil, or_false] at h
  rcases h with rfl | rfl | rfl | rfl | rfl | rfl | rfl <;> exact ⟨_, rfl, rfl, rfl⟩

/-- Settles O20: at either value of the parameter the block runs the store handler at one address. -/
theorem storeFlagsParameter : Obligations.StoreFlagsParameter := by
  intro c s hop
  obtain ⟨r, hr, hs, hgives⟩ := store_row_of_mem hop
  obtain ⟨ea, hea⟩ := Option.isSome_iff_exists.mp
    ((resolveEa_isSome c r.mode (s.pc + 1#16) s.x s.y s.mem).trans hgives)
  have hblock := blockStep_of_store_row hr hs hea
  refine ⟨fun hoff => ?_, fun hon => ?_, fun b => ?_⟩
  · simp [hblock, storeA_p, hoff]
  · simpa [hblock, storeA_p, hon] using flagsFrom_flags s.p s.a
  · rw [blockStep_of_store_row (c := { c with storeSetsFlags := b }) hr hs hea, hblock]
    exact ⟨_, storeA_eq_with_status _ _ _ _⟩

end Sys2Proof.Machine
end

section
/-! An instruction whose bytes straddle the top of memory. -/

namespace Sys2Proof.Machine

/-- A Running block runs the instruction it fetches (R124). -/
theorem step_of_fetchInstr {s : State} {i : Instr} (hrun : s.mode = .running) (hi : s.fetchInstr = some i) :
    step s = exec i s := by
  obtain ⟨-, j, hj, hstep⟩ | ⟨-, hnone, -⟩ | ⟨hstop, -⟩ := step_cases s
  · rwa [Option.some.inj (hi.symm.trans hj)]
  · simp [hi] at hnone
  · exact absurd hrun hstop

/-- Settles O8: the fetch wraps, so the instruction at 0xFFFF is the Absolute load of the word at 0x0000. -/
theorem operandsWrapPastTopOfMemory : Obligations.OperandsWrapPastTopOfMemory := by
  intro s hrun hpc hop
  have hfetch : s.fetchInstr =
      some (.loadAAbsolute (joinBytes (s.mem.read 0x0001#16) (s.mem.read 0x0000#16))) := by
    rw [State.fetchInstr, State.fetchBytes, hpc, hop]
    rfl
  have heffect (w : Word) :
      LoadEffect .a (s.mem.read w) 3 s (loadAt .a (eaAbsolute w) (s.pastInstr .absolute)) :=
    loadAt_effect .a w .absolute s rfl
  exact ⟨_, step_of_fetchInstr hrun hfetch, by simp [(heffect _).pc, hpc], (heffect _).dest⟩

end Sys2Proof.Machine
end

section
/-! A word in memory and the copy of a list of bytes: what every address reads after each. -/

namespace Sys2Proof

/-- The low byte of a word in numbers (R43). -/
theorem loByte_eq_ofNat (w : Word) : loByte w = BitVec.ofNat 8 (w.toNat % 256) := by
  rw [← toNat_loByte, BitVec.ofNat_toNat, BitVec.setWidth_eq]

/-- The high byte of a word in numbers (R43). -/
theorem hiByte_eq_ofNat (w : Word) : hiByte w = BitVec.ofNat 8 (w.toNat / 256) := by
  rw [← toNat_hiByte, BitVec.ofNat_toNat, BitVec.setWidth_eq]

end Sys2Proof

namespace Sys2Proof.Machine

/-- An address moved on by less than the size of memory is another address, past the wrap too (R26). -/
theorem ne_add_ofNat (a : Word) {n : Nat} (hpos : 0 < n) (hlt : n < 65536) : a ≠ a + BitVec.ofNat 16 n := by
  intro h
  have hsum := congrArg BitVec.toNat h
  simp only [BitVec.toNat_add, BitVec.toNat_ofNat] at hsum
  omega

/-- An address named by its number is not another number's address (R36). -/
theorem ofNat_ne {n : Nat} {a : Word} (hlt : n < 65536) (h : n ≠ a.toNat) : BitVec.ofNat 16 n ≠ a := by
  rintro rfl
  exact h (Nat.mod_eq_of_lt hlt).symm

/-- Every byte after a word write (R43). -/
theorem Memory.read_write16 (m : Memory) (a d b : Word) : (m.write16 a d).read b =
    if b = a + 1#16 then hiByte d else if b = a then loByte d else m.read b := by
  rw [Memory.write16, Memory.read_write, Memory.read_write]

@[simp] theorem Memory.read_write16_low (m : Memory) (a d : Word) : (m.write16 a d).read a = loByte d := by
  rw [Memory.read_write16, if_neg (ne_add_ofNat a Nat.one_pos (by decide)), if_pos rfl]

@[simp] theorem Memory.read_write16_high (m : Memory) (a d : Word) :
    (m.write16 a d).read (a + 1#16) = hiByte d := by
  rw [Memory.read_write16, if_pos rfl]

/-- A word write leaves every other byte alone. -/
theorem Memory.read_write16_other (m : Memory) {a b : Word} (d : Word) (hlow : b ≠ a)
    (hhigh : b ≠ a + 1#16) : (m.write16 a d).read b = m.read b := by
  rw [Memory.read_write16, if_neg hhigh, if_neg hlow]

/-- A word written is read back (R43). -/
@[simp] theorem Memory.read16_write16_self (m : Memory) (a d : Word) : (m.write16 a d).read16 a = d := by
  rw [Memory.read16, Memory.read_write16_high, Memory.read_write16_low, joinBytes_hiByte_loByte]

/-- Settles O23, by the bytes at the word's two addresses. -/
theorem wordWriteReadsBack : Obligations.WordWriteReadsBack := by
  intro m a d
  refine ⟨m.read16_write16_self a d, ?_, ?_, fun b => m.read_write16_other d⟩
  · rw [Memory.read_write16_low, loByte_eq_ofNat]
  · rw [Memory.read_write16_high, hiByte_eq_ofNat]

/-- An address apart from a stretch that does not wrap is none of the stretch's. -/
theorem ne_add_ofNat_of_outside {a b : Word} {n k : Nat} (hfit : a.toNat + n ≤ 65536)
    (hout : b.toNat < a.toNat ∨ a.toNat + n ≤ b.toNat) (hk : k < n) : b ≠ a + BitVec.ofNat 16 k := by
  rintro rfl
  have hsum : (a + BitVec.ofNat 16 k).toNat = a.toNat + k := by
    simp only [BitVec.toNat_add, BitVec.toNat_ofNat]
    omega
  omega

/-- A copy that does not wrap leaves every address outside it alone (R56). -/
theorem Memory.read_writeBytes_outside (m : Memory) {a b : Word} {bs : List Byte}
    (hfit : a.toNat + bs.length ≤ 65536) (hout : b.toNat < a.toNat ∨ a.toNat + bs.length ≤ b.toNat) :
    (m.writeBytes a bs).read b = m.read b :=
  m.read_writeBytes_other a bs b fun _ => ne_add_ofNat_of_outside hfit hout

/-- A copy no longer than memory puts each byte of the list at its own address (R56). -/
theorem Memory.read_writeBytes_getElem (m : Memory) (a : Word) {bs : List Byte} (hfit : bs.length ≤ 65536)
    {k : Nat} {v : Byte} (hk : bs[k]? = some v) : (m.writeBytes a bs).read (a + BitVec.ofNat 16 k) = v := by
  induction bs generalizing m a k with
  | nil => simp at hk
  | cons u bs ih =>
    rw [List.length_cons] at hfit
    cases k with
    | zero =>
      obtain rfl : u = v := by simpa using hk
      have hlater (j : Nat) (hj : j < bs.length) : a ≠ a + 1#16 + BitVec.ofNat 16 j := by
        rw [BitVec.add_assoc, ← BitVec.ofNat_add]
        exact ne_add_ofNat a (by omega) (by omega)
      rw [BitVec.add_zero, Memory.writeBytes, Memory.read_writeBytes_other _ _ _ _ hlater,
        Memory.read_write_self]
    | succ k =>
      have hnext := ih (m.write a u) (a + 1#16) (by omega) (by simpa using hk)
      rwa [BitVec.add_assoc, ← BitVec.ofNat_add, Nat.add_comm] at hnext

end Sys2Proof.Machine
end

section
/-! The host's `load`: exactly when it answers, with what memory, and where a reset then enters. -/

namespace Sys2Proof.Machine

open Sys2Proof.Config

/-- `load` answers exactly for an image that ends inside memory: the copy, then the vector (R56, R57). -/
theorem load_eq_next_iff {bytes : List Byte} {s t : State} {origin : Word} :
    load bytes s origin = .next t ↔ origin.toNat + bytes.length ≤ 65536 ∧
      t = { s with mem := (s.mem.writeBytes origin bytes).write16 resetVector origin } := by
  unfold load memSize
  split <;> simp [*, eq_comm]

/-- Settles O38: the vector is written last, over the copy. -/
theorem loadRule : Obligations.LoadRule := by
  intro bytes s origin hfit
  refine ⟨_, load_eq_next_iff.mpr ⟨hfit, rfl⟩, rfl, ?_, ?_, ?_, ?_, rfl⟩
  · exact (Memory.read_write16_low _ resetVector origin).trans (loByte_eq_ofNat origin)
  · exact (Memory.read_write16_high _ resetVector origin).trans (hiByte_eq_ofNat origin)
  · intro k b hk hlow hhigh
    obtain ⟨hlt, -⟩ := List.getElem?_eq_some_iff.mp hk
    have haddr : BitVec.ofNat 16 (origin.toNat + k) = origin + BitVec.ofNat 16 k := by
      rw [BitVec.ofNat_add, BitVec.ofNat_toNat, BitVec.setWidth_eq]
    have hbyte := s.mem.read_writeBytes_getElem origin (by omega) hk
    rw [← haddr] at hbyte
    exact (Memory.read_write16_other _ origin (ofNat_ne (by omega) hlow) (ofNat_ne (by omega) hhigh)).trans
      hbyte
  · intro a hlow hhigh hout
    exact (Memory.read_write16_other _ origin hlow hhigh).trans (s.mem.read_writeBytes_outside hfit hout)

/-- Settles O40: `reset()` reads the word that `load` wrote last. -/
theorem loadThenResetEntersOrigin : Obligations.LoadThenResetEntersOrigin := by
  intro c bytes s t origin hload
  obtain ⟨-, rfl⟩ := load_eq_next_iff.mp hload
  exact ⟨Memory.read16_write16_self _ resetVector origin, rfl⟩

/-- Settles O39: past the top the check of `load` fails. -/
theorem loadPastTopIsRefused : Obligations.LoadPastTopIsRefused := by
  intro bytes s origin hpast
  exact if_neg (Nat.not_le_of_lt hpast)

end Sys2Proof.Machine
end

section
/-! A store to the byte after itself, and the fetch that follows it. -/

namespace Sys2Proof.Machine

/-- STA Absolute is the store handler at the operand word (R116). -/
theorem exec_storeAAbsolute (abs : Word) (s : State) :
    exec (.storeAAbsolute abs) s = .next (storeA params (eaAbsolute abs) (s.pastInstr .absolute)) := rfl

/-- Settles O34: of the three bytes fetched next the store changed the first alone. -/
theorem storeIsSeenByNextFetch : Obligations.StoreIsSeenByNextFetch := by
  intro s hrun hfetch
  have heffect : StoreEffect (s.pc + 3#16) 3 s
      (storeA params (eaAbsolute (s.pc + 3#16)) (s.pastInstr .absolute)) :=
    storeA_effect (s.pc + 3#16) .absolute s rfl
  refine ⟨_, (step_of_fetchInstr hrun hfetch).trans (exec_storeAAbsolute _ s), heffect.pc,
    heffect.mode.trans hrun, ?_⟩
  have hsecond : s.pc + 3#16 + 1#16 = s.pc + 4#16 := BitVec.add_assoc _ _ _
  have hthird : s.pc + 3#16 + 2#16 = s.pc + 5#16 := BitVec.add_assoc _ _ _
  rw [State.fetchInstr, State.fetchBytes, heffect.pc, hsecond, hthird, heffect.stored,
    heffect.elsewhere _ (by simp), heffect.elsewhere _ (by simp)]

end Sys2Proof.Machine
end

section
/-! Decoder and encoder are inverse (30_encoding.md R59-R70): an instruction is its row and its operand. -/

namespace Sys2Proof

/-- What it takes for the decoder to answer an instruction, the row known: the operand of the row's mode, and
the instruction of the two (R60). -/
theorem decodeRow_eq_ok_iff (r : OpcodeRecord) (op : Byte) (bytes rest : List Byte) (i : Instr) :
    decodeRow r op bytes = .ok i rest ↔
      ∃ o, takeOperand r.mode bytes = some (o, rest) ∧ Instr.ofShape r.mnemonic r.mode o = some i := by
  cases ht : takeOperand r.mode bytes with
  | none => simp [decodeRow, ht]
  | some taken =>
    cases hi : Instr.ofShape r.mnemonic r.mode taken.1 with
    | none => simp [decodeRow, ht, hi, Prod.ext_iff]
    | some j => simp [decodeRow, ht, hi, Prod.ext_iff, and_comm]

/-- The decoder answers an instruction exactly when the first byte has a row and the row gives it (R66). -/
theorem decode_cons_eq_ok_iff (op : Byte) (bytes rest : List Byte) (i : Instr) :
    decode (op :: bytes) = .ok i rest ↔
      ∃ r, lookup catalog op = some r ∧ decodeRow r op bytes = .ok i rest := by
  cases hr : lookup catalog op with
  | none => simp [decode, hr]
  | some r => simp [decode, hr]

/-- Settles O3: the opcode byte gives the instruction's row back, and the operand bytes its operand. -/
theorem decodeOfEncode : Obligations.DecodeOfEncode := by
  intro i rest
  obtain ⟨cycles, hrow⟩ := lookup_opcode i
  refine (decode_of_lookup hrow _).trans ((decodeRow_eq_ok_iff _ _ _ _ _).mpr ?_)
  exact ⟨i.operand, takeOperand_bytes (fits_operand i) rest, ofShape_shape i⟩

/-- No two bytes of the default catalog have the same mnemonic and mode (R67-R70). -/
theorem hex_eq_of_catalog_rows : ∀ r ∈ catalog, ∀ q ∈ catalog,
    r.mnemonic = q.mnemonic → r.mode = q.mode → r.hex = q.hex := by decide

/-- The encoder's opcode byte is that of any row with the instruction's mnemonic and mode. -/
theorem Instr.opcode_eq_hex {i : Instr} {r : OpcodeRecord} (hr : r ∈ catalog) (hmn : i.mnemonic = r.mnemonic)
    (hm : i.mode = r.mode) : i.opcode = r.hex := by
  obtain ⟨cycles, hrow⟩ := lookup_opcode i
  exact hex_eq_of_catalog_rows _ (lookup_some hrow).1 r hr hmn hm

/-- Settles O4: the row decoded is the one the encoder uses, and the operand taken has the bytes it was taken
from. -/
theorem encodeOfDecode : Obligations.EncodeOfDecode := by
  intro bytes i rest hd
  cases bytes with
  | nil => cases hd
  | cons op bytes =>
    obtain ⟨r, hr, hd⟩ := (decode_cons_eq_ok_iff op bytes rest i).mp hd
    obtain ⟨o, ht, hi⟩ := (decodeRow_eq_ok_iff r op bytes rest i).mp hd
    obtain ⟨hmem, rfl⟩ := lookup_some hr
    obtain ⟨hmn, hm, rfl⟩ := ofShape_some hi
    obtain ⟨-, hbytes⟩ := takeOperand_some ht
    rw [encode, Instr.opcode_eq_hex hmem hmn hm, List.cons_append, hbytes]

/-- Settles O5: a byte with a row decodes whatever follows it, and the rows' bytes are the 28. -/
theorem decoderRejectsUnlistedBytes : Obligations.DecoderRejectsUnlistedBytes := by
  intro op lo hi rest
  refine Iff.trans ?_ (lookup_eq_none_iff catalog op)
  cases hr : lookup catalog op with
  | none => simp [decode, hr]
  | some r =>
    obtain ⟨i, rest', hd, -⟩ := decode_of_row hr lo hi rest
    simp [hd]

/-- Settles O6, by running the decoder on each word. -/
theorem specWordsDecode : Obligations.SpecWordsDecode := by
  unfold Obligations.SpecWordsDecode
  decide

end Sys2Proof

namespace Sys2Proof.Machine

/-- A Running block whose fetched bytes begin with an instruction's encoding runs that instruction (R124,
R125). -/
theorem step_of_encode {s : State} (hrun : s.mode = .running) (i : Instr)
    (h : encode i <+: s.fetchBytes) : step s = exec i s := by
  obtain ⟨rest, hbytes⟩ := h
  refine step_of_fetchInstr hrun ?_
  rw [State.fetchInstr, ← hbytes, decodeOfEncode i rest]
  rfl

/-- Settles O7: in each of the three formats the bytes fetched begin with the encoding of the instruction named. -/
theorem opcodeByteSelectsInstruction : Obligations.OpcodeByteSelectsInstruction := by
  intro s hrun op b w
  have run (i : Instr) (ho : i.operand.bytes <+: [b, s.mem.read (s.pc + 2#16)]) (hop : op = i.opcode) :
      step s = exec i s :=
    step_of_encode hrun i (List.cons_prefix_cons.mpr ⟨hop.symm, ho⟩)
  have f1 : Operand.none.bytes <+: [b, s.mem.read (s.pc + 2#16)] := List.nil_prefix
  have f2 : (Operand.byte b).bytes <+: [b, s.mem.read (s.pc + 2#16)] := ⟨_, rfl⟩
  have f3 : (Operand.word w).bytes <+: [b, s.mem.read (s.pc + 2#16)] := by simp [Operand.bytes, w]
  exact ⟨run .halt f1,
    run (.loadAImmediate b) f2, run (.loadAZeroPage b) f2, run (.loadAZeroPageX b) f2,
    run (.loadAAbsolute w) f3, run (.loadAAbsoluteX w) f3, run (.loadAAbsoluteY w) f3,
    run (.loadAIndirectX b) f2, run (.loadAIndirectY b) f2,
    run (.loadXImmediate b) f2, run (.loadXZeroPage b) f2, run (.loadXZeroPageY b) f2,
    run (.loadXAbsolute w) f3, run (.loadXAbsoluteY w) f3,
    run (.loadYImmediate b) f2, run (.loadYZeroPage b) f2, run (.loadYZeroPageX b) f2,
    run (.loadYAbsolute w) f3, run (.loadYAbsoluteX w) f3,
    run (.storeAZeroPage b) f2, run (.storeAZeroPageX b) f2,
    run (.storeAAbsolute w) f3, run (.storeAAbsoluteX w) f3, run (.storeAAbsoluteY w) f3,
    run (.storeAIndirectX b) f2, run (.storeAIndirectY b) f2,
    run .transferAtoX f1, run .incrementX f1⟩

end Sys2Proof.Machine
end

section
/-! Any catalog: R71 leaves no resolution fault, and R65 makes the lookup a function. -/

namespace Sys2Proof

/-- The catalog's check is that its list of bytes has no duplicate (R65). -/
theorem uniqueBytes_iff_nodup (cat : List OpcodeRecord) :
    uniqueBytes cat = true ↔ (cat.map OpcodeRecord.hex).Nodup := by
  induction cat with
  | nil => simp [uniqueBytes]
  | cons r rs ih => simp [uniqueBytes, ih]

/-- With unique bytes every row of the catalog is the one its byte looks up (R65, R66). -/
theorem lookup_hex_of_mem {cat : List OpcodeRecord} (h : uniqueBytes cat = true) {r : OpcodeRecord}
    (hr : r ∈ cat) : lookup cat r.hex = some r := by
  cases hq : lookup cat r.hex with
  | none => exact absurd (List.mem_map_of_mem hr) ((lookup_eq_none_iff cat r.hex).mp hq)
  | some q =>
    obtain ⟨hmem, hhex⟩ := lookup_some hq
    rw [List.inj_on_of_nodup_map ((uniqueBytes_iff_nodup cat).mp h) hmem hr hhex]

end Sys2Proof

namespace Sys2Proof.Machine

/-- Settles O37: the lookup finds the one row with the byte, and a duplicate fails the check that every
operation makes first. -/
theorem catalogLookupIsUnique : Obligations.CatalogLookupIsUnique := by
  intro cat
  refine ⟨fun hunique op r => ⟨lookup_some, ?_⟩, fun hdup c s => ?_⟩
  · rintro ⟨hr, rfl⟩
    exact lookup_hex_of_mem hunique hr
  · refine ⟨withCatalog_of_duplicate hdup _, fun n => withCatalog_of_duplicate hdup _,
      fun n bytes => withCatalog_of_duplicate hdup _, ?_⟩
    rintro t e ⟨-, n, hend⟩
    exact absurd (withCatalog_eq_next_iff.mp hend).1 (by simp [hdup])

/-- The execute phase writes no fault record (R161). -/
@[simp] theorem commit_fault (out : AluOut) (s : State) : (commit out s).fault = s.fault := by
  obtain ⟨_ | _, _ | _, _ | _, _ | _⟩ := out <;> simp [commit]

/-- Settles O35: at a well-formed row the alu answers, and the commit of its answer records no fault. -/
theorem wellFormedCatalogNeverResolutionFaults : Obligations.WellFormedCatalogNeverResolutionFaults := by
  intro c cat s hwf hnofault op addr mode
  cases hr : lookup cat (s.mem.read s.pc) with
  | none => simp [blockStep_of_no_row c hr]
  | some r =>
    have hrow : r.wf = true := List.all_eq_true.mp hwf r (lookup_some hr).1
    obtain ⟨out, halu⟩ := alu_answers_of_wf hrow c (s.pc + 1#16) s.a s.x s.y s.mem
    simp [blockStep_of_row hr halu, hnofault]

end Sys2Proof.Machine
end

section
/-! The address resolver in numbers (40_addressing.md R78-R92): what each kind of address and pointer sums to. -/

namespace Sys2Proof

/-- A word is the one named by its number. -/
theorem ofNat_toNat_word (w : Word) : BitVec.ofNat 16 w.toNat = w := by
  rw [BitVec.ofNat_toNat, BitVec.setWidth_eq]

/-- A word from its bytes, in numbers (R42). -/
theorem joinBytes_eq_ofNat (hi lo : Byte) : joinBytes hi lo = BitVec.ofNat 16 (lo.toNat + 256 * hi.toNat) := by
  rw [← toNat_joinBytes, ofNat_toNat_word]

end Sys2Proof

namespace Sys2Proof.Machine

open Sys2Proof.Config

theorem Memory.toNat_read16 (m : Memory) (a : Word) :
    (m.read16 a).toNat = (m.read a).toNat + 256 * (m.read (a + 1#16)).toNat := toNat_joinBytes _ _

/-- A sum of an address and a number, modulo 2^16 (R26). -/
theorem add_ofNat_eq (a : Word) (n : Nat) : a + BitVec.ofNat 16 n = BitVec.ofNat 16 (a.toNat + n) := by
  rw [BitVec.ofNat_add, ofNat_toNat_word]

theorem zext_eq_ofNat (b : Byte) : zext b = BitVec.ofNat 16 b.toNat := (BitVec.ofNat_toNat 16 b).symm

theorem toNat_zext (b : Byte) : (zext b).toNat = b.toNat :=
  BitVec.toNat_setWidth_of_le (by decide)

/-- A byte below 0x80 is widened as it is (R63). -/
theorem sext_of_lt {b : Byte} (h : b.toNat < 128) : sext b = BitVec.ofNat 16 b.toNat := by
  have hmsb : b.msb = false := by simpa [BitVec.msb_eq_decide] using h
  rw [sext, BitVec.signExtend_eq_setWidth_of_msb_false hmsb, BitVec.ofNat_toNat]

/-- A byte from 0x80 up is widened by the high byte 0xFF (R63). -/
theorem sext_of_ge {b : Byte} (h : 128 ≤ b.toNat) : sext b = BitVec.ofNat 16 (b.toNat + 65280) := by
  have hmsb : b.msb = true := by simpa [BitVec.msb_eq_decide] using h
  apply BitVec.eq_of_toNat_eq
  simp only [sext, BitVec.toNat_signExtend, BitVec.toNat_setWidth, hmsb, if_true, BitVec.toNat_ofNat]
  omega

/-- A page-0 sum wraps at 8 bits (R83, R84). -/
theorem toNat_eaZeroPageIndexed (b index : Byte) :
    (eaZeroPageIndexed b index).toNat = (b.toNat + index.toNat) % 256 :=
  (toNat_zext _).trans (BitVec.toNat_add b index)

/-- An absolute sum wraps at 16 bits (R87, R88). -/
theorem toNat_eaAbsoluteIndexed (w : Word) (index : Byte) :
    (eaAbsoluteIndexed w index).toNat = (w.toNat + index.toNat) % 65536 := by
  rw [eaAbsoluteIndexed, BitVec.toNat_add, toNat_zext]

/-- The word at a zero-page pointer whose high byte wraps within page 0 (R90, R91). -/
theorem pointerWord_zeroPage (m : Memory) (ptr : Byte) : pointerWord .zeroPage m ptr =
    BitVec.ofNat 16 ((m.read (BitVec.ofNat 16 ptr.toNat)).toNat +
      256 * (m.read (BitVec.ofNat 16 ((ptr.toNat + 1) % 256))).toNat) := by
  have hnext : (ptr + 1#8).toNat = (ptr.toNat + 1) % 256 := BitVec.toNat_add ptr 1#8
  simp only [pointerWord, joinBytes_eq_ofNat, zext_eq_ofNat, hnext]

/-- The word at a zero-page pointer whose high byte is at the next 16-bit address (R90, R91). -/
theorem pointerWord_linear (m : Memory) (ptr : Byte) : pointerWord .linear m ptr =
    BitVec.ofNat 16 ((m.read (BitVec.ofNat 16 ptr.toNat)).toNat +
      256 * (m.read (BitVec.ofNat 16 (ptr.toNat + 1))).toNat) := by
  simp only [pointerWord, joinBytes_eq_ofNat, zext_eq_ofNat, BitVec.ofNat_add]

/-- The word at a word's address (R89). -/
theorem eaIndirect_eq_ofNat (m : Memory) (q : Word) : eaIndirect m q =
    BitVec.ofNat 16 ((m.read (BitVec.ofNat 16 q.toNat)).toNat +
      256 * (m.read (BitVec.ofNat 16 (q.toNat + 1))).toNat) := by
  rw [eaIndirect, Memory.read16, joinBytes_eq_ofNat, ← add_ofNat_eq, ofNat_toNat_word]

/-- The base of a Relative address (R85, REL_BASE). -/
def relativeBase (r : RelBase) (pc : Word) : Word :=
  match r with
  | .operandAddress => pc
  | .nextInstruction => pc + 1#16

/-- The widened offset of a Relative address (R85, REL_EXT). -/
def relativeOffset (e : RelExt) (o : Byte) : Word :=
  match e with
  | .sign => sext o
  | .zero => zext o

theorem eaRelative_eq_add (c : Params) (pc : Word) (o : Byte) :
    eaRelative c pc o = relativeBase c.relBase pc + relativeOffset c.relExt o := rfl

theorem relativeBase_of_operandAddress {r : RelBase} (h : r = .operandAddress) (pc : Word) :
    relativeBase r pc = BitVec.ofNat 16 pc.toNat := by
  rw [h, ofNat_toNat_word]
  rfl

theorem relativeBase_of_nextInstruction {r : RelBase} (h : r = .nextInstruction) (pc : Word) :
    relativeBase r pc = BitVec.ofNat 16 (pc.toNat + 1) := by
  rw [h, ← add_ofNat_eq]
  rfl

theorem relativeOffset_of_sign_lt {e : RelExt} {o : Byte} (h : e = .sign) (ho : o.toNat < 128) :
    relativeOffset e o = BitVec.ofNat 16 o.toNat := by
  rw [h, ← sext_of_lt ho]
  rfl

theorem relativeOffset_of_sign_ge {e : RelExt} {o : Byte} (h : e = .sign) (ho : 128 ≤ o.toNat) :
    relativeOffset e o = BitVec.ofNat 16 (o.toNat + 65280) := by
  rw [h, ← sext_of_ge ho]
  rfl

theorem relativeOffset_of_zero {e : RelExt} (h : e = .zero) (o : Byte) :
    relativeOffset e o = BitVec.ofNat 16 o.toNat := by
  rw [h, ← zext_eq_ofNat]
  rfl

/-- The resolver's answer in numbers, once the mode's address is known (R78). -/
theorem resolve_of_ea {c : Params} {m : AddrMode} {pc : Word} {x y : Byte} {mem : Memory} {ea : Word} {n : Nat}
    (hea : resolveEa c m pc x y mem = some ea) (hn : ea = BitVec.ofNat 16 n) :
    resolve c m pc x y mem = (some (BitVec.ofNat 16 n), BitVec.ofNat 16 (pc.toNat + m.byteCount)) := by
  rw [resolve, hea, hn, add_ofNat_eq]

/-- The same from the number the address has, which is then below 2^16. -/
theorem resolve_of_toNat_ea {c : Params} {m : AddrMode} {pc : Word} {x y : Byte} {mem : Memory} {ea : Word}
    {n : Nat} (hea : resolveEa c m pc x y mem = some ea) (hn : ea.toNat = n) :
    resolve c m pc x y mem = (some (BitVec.ofNat 16 n), BitVec.ofNat 16 (pc.toNat + m.byteCount)) ∧
      n < 65536 := by
  subst hn
  exact ⟨resolve_of_ea hea (ofNat_toNat_word ea).symm, ea.isLt⟩

/-- A mode with no address and no operand byte leaves the counter where it is (R79, R80). -/
theorem resolve_of_no_ea {c : Params} {m : AddrMode} {pc : Word} {x y : Byte} {mem : Memory}
    (hea : resolveEa c m pc x y mem = none) (hcount : m.byteCount = 0) :
    resolve c m pc x y mem = (none, pc) := by
  rw [resolve, hea, hcount, BitVec.add_zero]

/-- Settles O21, each mode from the number of its address. -/
theorem resolverDirectModes : Obligations.ResolverDirectModes := by
  intro c pc x y mem b w at_
  have hword : (mem.read16 pc).toNat = w := mem.toNat_read16 pc
  refine ⟨resolve_of_no_ea rfl rfl, resolve_of_no_ea rfl rfl, resolve_of_toNat_ea rfl rfl,
    resolve_of_toNat_ea rfl (toNat_zext _), resolve_of_toNat_ea rfl (toNat_eaZeroPageIndexed _ x),
    resolve_of_toNat_ea rfl (toNat_eaZeroPageIndexed _ y), resolve_of_toNat_ea rfl hword,
    resolve_of_toNat_ea rfl ?_, resolve_of_toNat_ea rfl ?_⟩
  · rw [toNat_eaAbsoluteIndexed, hword]
  · rw [toNat_eaAbsoluteIndexed, hword]

/-- The resolver on Relative, from the base and the offset in numbers (R85). -/
theorem resolve_relative {c : Params} {pc : Word} {x y : Byte} {mem : Memory} {n d : Nat}
    (hn : relativeBase c.relBase pc = BitVec.ofNat 16 n)
    (hd : relativeOffset c.relExt (mem.read pc) = BitVec.ofNat 16 d) :
    resolve c .relative pc x y mem = (some (BitVec.ofNat 16 (n + d)), BitVec.ofNat 16 (pc.toNat + 1)) := by
  refine resolve_of_ea rfl ?_
  rw [eaRelative_eq_add, hn, hd, BitVec.ofNat_add]

/-- Settles O22: the pointer modes from the word at the pointer, Relative from its base and its offset. -/
theorem resolverPointerModes : Obligations.ResolverPointerModes := by
  intro c pc x y mem rd b q px at_
  have hq : (mem.read16 pc).toNat = q := mem.toNat_read16 pc
  have hpx : (mem.read pc + x).toNat = px := BitVec.toNat_add _ x
  refine ⟨resolve_of_ea rfl ?_, fun hwrap => resolve_of_ea rfl ?_, fun hwrap => resolve_of_ea rfl ?_,
    fun hwrap => resolve_of_ea rfl ?_, fun hwrap => resolve_of_ea rfl ?_,
    fun hb he ho => ?_, fun hb he ho => ?_, fun hb he => ?_, fun hb he ho => ?_, fun hb he ho => ?_,
    fun hb he => ?_⟩
  · rw [eaIndirect_eq_ofNat, hq]
  · rw [eaIndirectX, hwrap, pointerWord_zeroPage, hpx]
  · rw [eaIndirectX, hwrap, pointerWord_linear, hpx]
  · rw [eaIndirectY, hwrap, pointerWord_zeroPage, zext_eq_ofNat, ← BitVec.ofNat_add]
  · rw [eaIndirectY, hwrap, pointerWord_linear, zext_eq_ofNat, ← BitVec.ofNat_add]
  · exact resolve_relative (relativeBase_of_operandAddress hb pc) (relativeOffset_of_sign_lt he ho)
  · rw [Nat.add_assoc]
    exact resolve_relative (relativeBase_of_operandAddress hb pc) (relativeOffset_of_sign_ge he ho)
  · exact resolve_relative (relativeBase_of_operandAddress hb pc) (relativeOffset_of_zero he _)
  · exact resolve_relative (relativeBase_of_nextInstruction hb pc) (relativeOffset_of_sign_lt he ho)
  · rw [Nat.add_assoc _ b]
    exact resolve_relative (relativeBase_of_nextInstruction hb pc) (relativeOffset_of_sign_ge he ho)
  · exact resolve_relative (relativeBase_of_nextInstruction hb pc) (relativeOffset_of_zero he _)

end Sys2Proof.Machine
end

section
/-! The load and store families (41_load_store.md R94-R120): an instruction that runs one of the shared handlers
completes with the handler's effect, so each form is settled by naming its handler, address and mode. -/

namespace Sys2Proof.Machine

/-- An instruction that runs the load handler at an address completes with the byte there before it (R94, R161). -/
theorem load_completes {i : Instr} {s : State} {r : Reg} {ea : Word} {n : Nat} (m : AddrMode)
    (hexec : exec i s = .next (loadAt r ea (s.pastInstr m))) (hn : n = 1 + m.byteCount) :
    ∃ t, exec i s = .next t ∧ LoadEffect r (s.mem.read ea) n s t :=
  ⟨_, hexec, loadAt_effect r ea m s hn⟩

/-- An immediate load completes with its operand (R95, R103, R108). -/
theorem load_immediate_completes {i : Instr} {s : State} {r : Reg} {imm : Byte}
    (hexec : exec i s = .next (loadValue r imm (s.pastInstr .immediate))) :
    ∃ t, exec i s = .next t ∧ LoadEffect r imm 2 s t :=
  ⟨_, hexec, loadValue_effect r imm .immediate s rfl⟩

/-- An instruction that runs the store handler at an address completes with `a` stored there (R113; log entry 1). -/
theorem store_completes {i : Instr} {s : State} {ea : Word} {n : Nat} (m : AddrMode)
    (hexec : exec i s = .next (storeA params ea (s.pastInstr m))) (hn : n = 1 + m.byteCount) :
    ∃ t, exec i s = .next t ∧ StoreEffect ea n s t :=
  ⟨_, hexec, storeA_effect ea m s hn⟩

/-- Indirect_X at the defaults: both pointer bytes are in page 0 (R90, decision D9; log entry 3). -/
theorem eaIndirectX_params (mem : Memory) (zp x : Byte) : eaIndirectX params mem zp x =
    joinBytes (mem.read (zext (zp + x + 1#8))) (mem.read (zext (zp + x))) := rfl

/-- Indirect_Y at the defaults: both pointer bytes are in page 0, the index is added after (R91, decision D10;
log entry 3). -/
theorem eaIndirectY_params (mem : Memory) (zp y : Byte) : eaIndirectY params mem zp y =
    joinBytes (mem.read (zext (zp + 1#8))) (mem.read (zext zp)) + zext y := rfl

/-- Settles O9: the byte A9 at `pc` selects the immediate load, whose operand the fetch has already wrapped. -/
theorem loadAImmediateRule : Obligations.LoadAImmediateRule := by
  refine ⟨fun imm => rfl, fun imm s => load_immediate_completes rfl, fun s hrun hop => ?_⟩
  obtain ⟨-, hselect, -⟩ := opcodeByteSelectsInstruction s hrun
  rw [hselect hop]
  exact load_immediate_completes rfl

/-- Settles O10, form by form from the load handler. -/
theorem loadADirectForms : Obligations.LoadADirectForms := by
  intro s
  exact ⟨fun zp => load_completes .zeroPage rfl rfl, fun zp => load_completes .zeroPageX rfl rfl,
    fun w => load_completes .absolute rfl rfl, fun w => load_completes .absoluteX rfl rfl,
    fun w => load_completes .absoluteY rfl rfl⟩

/-- Settles O11: the pointer expressions are the addresses of the two indirect modes at the defaults. -/
theorem loadAIndirectForms : Obligations.LoadAIndirectForms := by
  intro s
  refine ⟨fun zp => ?_, fun zp => ?_⟩
  · rw [← eaIndirectX_params]
    exact load_completes .indirectX rfl rfl
  · rw [← eaIndirectY_params]
    exact load_completes .indirectY rfl rfl

/-- Settles O12, form by form from the load handler. -/
theorem loadXForms : Obligations.LoadXForms := by
  intro s
  exact ⟨fun imm => load_immediate_completes rfl,
    fun zp => load_completes .zeroPage rfl rfl, fun zp => load_completes .zeroPageY rfl rfl,
    fun w => load_completes .absolute rfl rfl, fun w => load_completes .absoluteY rfl rfl⟩

/-- Settles O13, form by form from the load handler. -/
theorem loadYForms : Obligations.LoadYForms := by
  intro s
  exact ⟨fun imm => load_immediate_completes rfl,
    fun zp => load_completes .zeroPage rfl rfl, fun zp => load_completes .zeroPageX rfl rfl,
    fun w => load_completes .absolute rfl rfl, fun w => load_completes .absoluteX rfl rfl⟩

/-- Settles O14, form by form from the store handler. -/
theorem storeADirectForms : Obligations.StoreADirectForms := by
  intro s
  exact ⟨fun zp => store_completes .zeroPage rfl rfl, fun zp => store_completes .zeroPageX rfl rfl,
    fun w => store_completes .absolute rfl rfl, fun w => store_completes .absoluteX rfl rfl,
    fun w => store_completes .absoluteY rfl rfl⟩

/-- Settles O15: the pointer expressions, read before the store, are the addresses of the two indirect modes at
the defaults. -/
theorem storeAIndirectForms : Obligations.StoreAIndirectForms := by
  intro s
  refine ⟨fun zp => ?_, fun zp => ?_⟩
  · rw [← eaIndirectX_params]
    exact store_completes .indirectX rfl rfl
  · rw [← eaIndirectY_params]
    exact store_completes .indirectY rfl rfl

end Sys2Proof.Machine
end

section
/-! TransferAtoX and IncrementX (42_transfer_increment.md R121, R122): a one-byte instruction that puts a value of
the registers in a register and applies the flag unit to it. -/

namespace Sys2Proof.Machine

/-- The byte above a byte, wrapping from 0xFF to 0x00 (R122). -/
theorem byte_add_one_eq_ofNat (v : Byte) : v + 1#8 = BitVec.ofNat 8 ((v.toNat + 1) % 256) := by
  apply BitVec.eq_of_toNat_eq
  rw [BitVec.toNat_add, BitVec.toNat_ofNat, BitVec.toNat_ofNat, Nat.mod_mod]

/-- A one-byte instruction that writes a register and its flags completes with that value (R121, R122, R161). -/
theorem load_implied_completes {i : Instr} {s : State} {r : Reg} {v : Byte}
    (hexec : exec i s = .next (loadValue r v (s.pastInstr .implied))) :
    ∃ t, exec i s = .next t ∧ LoadEffect r v 1 s t :=
  ⟨_, hexec, loadValue_effect r v .implied s rfl⟩

/-- Settles O16: TAX loads `a`, as it was before, into `x`. -/
theorem transferAtoXRule : Obligations.TransferAtoXRule :=
  ⟨rfl, fun _ => load_implied_completes rfl⟩

/-- Settles O17: INX loads `x + 1` into `x`, and the 8-bit sum is the one modulo 256. -/
theorem incrementXRule : Obligations.IncrementXRule := by
  refine ⟨rfl, fun s => ?_⟩
  rw [← byte_add_one_eq_ofNat]
  exact load_implied_completes rfl

end Sys2Proof.Machine
end

section
/-! A run (43_halt_and_loop.md R131-R134): one turn of its loop, whatever the bound left, and what follows about
how a run ends. -/

namespace Sys2Proof.Machine

open Sys2Proof.Config

/-- A run of a Running block of a checked catalog is the loop from it (R65, R131). -/
theorem runBounded_eq_runLoop {cat : List OpcodeRecord} (c : Params) (h : uniqueBytes cat = true) (n : Nat)
    {s : State} (hm : s.mode = .running) : runBounded c cat n s = runLoop c cat n s := by
  rw [runBounded_running c cat n hm, withCatalog_of_unique h]

/-- Settles O42: the step is the block's at the defaults, and the run's loop takes one turn on it. -/
theorem runFollowsStep : Obligations.RunFollowsStep := by
  intro n s t hrun hstep
  obtain rfl : blockStep params catalog s = t := by simpa [step_eq_blockStep hrun] using hstep
  obtain ⟨hgo, hhalt, hfault⟩ := runLoop_succ params uniqueBytes_catalog n hrun
  rw [runBounded_eq_runLoop params uniqueBytes_catalog _ hrun]
  refine ⟨fun ht => ?_, hhalt, hfault⟩
  rw [runBounded_eq_runLoop params uniqueBytes_catalog _ ht, hgo ht]

/-- How a turn of the loop goes does not depend on how many are left after it: it goes on from one state, or it
gives one answer (R131). -/
theorem runLoop_succ_cases (c : Params) (cat : List OpcodeRecord) (s : State) :
    (∃ t, ∀ n, runLoop c cat (n + 1) s = runLoop c cat n t) ∨ ∃ o, ∀ n, runLoop c cat (n + 1) s = o := by
  cases hstep : blockOutcome c cat s with
  | next t =>
    cases hmode : t.mode with
    | running => exact .inl ⟨t, fun n => by simp only [runLoop, hstep, hmode]⟩
    | halted => exact .inr ⟨.next (t, .halted), fun n => by simp only [runLoop, hstep, hmode]⟩
    | faulted => exact .inr ⟨.next (t, .faulted t.fault), fun n => by simp only [runLoop, hstep, hmode]⟩
  | fault f => exact .inr ⟨.fault f, fun n => by simp only [runLoop, hstep]⟩
  | refused r => exact .inr ⟨.refused r, fun n => by simp only [runLoop, hstep]⟩

/-- A loop that ends within a bound ends alike within every larger one (R133). -/
theorem runLoop_of_le {c : Params} {cat : List OpcodeRecord} {n m : Nat} {s t : State} {e : RunEnd} (hle : n ≤ m)
    (hend : e ≠ .outOfFuel) (h : runLoop c cat n s = .next (t, e)) : runLoop c cat m s = .next (t, e) := by
  induction n generalizing m s with
  | zero => simp [runLoop, hend.symm] at h
  | succ n ih =>
    obtain ⟨m, rfl⟩ := Nat.exists_eq_add_one.mpr (Nat.zero_lt_of_lt hle)
    obtain ⟨u, hgo⟩ | ⟨o, hstop⟩ := runLoop_succ_cases c cat s
    · exact (hgo m).trans (ih (Nat.le_of_succ_le_succ hle) ((hgo n).symm.trans h))
    · exact (hstop m).trans ((hstop n).symm.trans h)

/-- A run that ends within a bound ends alike within every larger one (R133). -/
theorem runBounded_of_le {c : Params} {cat : List OpcodeRecord} {n m : Nat} {s t : State} {e : RunEnd}
    (hle : n ≤ m) (hend : e ≠ .outOfFuel) (h : runBounded c cat n s = .next (t, e)) :
    runBounded c cat m s = .next (t, e) := by
  obtain ⟨hunique, h⟩ := withCatalog_eq_next_iff.mp h
  refine withCatalog_eq_next_iff.mpr ⟨hunique, ?_⟩
  cases hmode : s.mode with
  | faulted => simpa only [hmode] using h
  | halted | running =>
    simp only [hmode] at h ⊢
    exact runLoop_of_le hle hend h

/-- Settles O43: the larger of the two bounds gives both ends. -/
theorem runEndIsUnique : Obligations.RunEndIsUnique := by
  rintro c cat s t t' e e' ⟨hend, n, h⟩ ⟨hend', n', h'⟩
  have hmax := runBounded_of_le (Nat.le_max_left n n') hend h
  have hmax' := runBounded_of_le (Nat.le_max_right n n') hend' h'
  simpa using hmax.symm.trans hmax'

/-- At TAX or INX a Running block puts a value in `x` with its flags, and moves on by one byte (R121, R122). -/
theorem step_at_tax_or_inx {s : State} (hrun : s.mode = .running)
    (hop : s.mem.read s.pc = 0xAA#8 ∨ s.mem.read s.pc = 0xE8#8) :
    ∃ v t, step s = .next t ∧ LoadEffect .x v 1 s t := by
  obtain h | h := hop
  · rw [step_of_encode hrun .transferAtoX ⟨_, by rw [State.fetchBytes, h]; rfl⟩]
    exact ⟨_, transferAtoXRule.2 s⟩
  · rw [step_of_encode hrun .incrementX ⟨_, by rw [State.fetchBytes, h]; rfl⟩]
    exact ⟨_, incrementXRule.2 s⟩

/-- Settles O44, by induction on the bound: a step at TAX or INX leaves every byte and the mode as they were. -/
theorem runMayNeverEnd : Obligations.RunMayNeverEnd := by
  intro s hrun hmem n
  induction n generalizing s with
  | zero =>
    exact ⟨s, runBounded_eq_runLoop params uniqueBytes_catalog 0 hrun, hrun, (Nat.mod_eq_of_lt s.pc.isLt).symm⟩
  | succ n ih =>
    obtain ⟨v, u, hstep, heffect⟩ := step_at_tax_or_inx hrun (hmem s.pc)
    have hrunU : u.mode = .running := heffect.mode.trans hrun
    obtain ⟨t, hend, hmode, hpc⟩ := ih u hrunU fun b => by rw [heffect.mem]; exact hmem b
    refine ⟨t, ((runFollowsStep n s u hrun hstep).1 hrunU).trans hend, hmode, ?_⟩
    rw [hpc, heffect.pc, BitVec.toNat_add, BitVec.toNat_ofNat]
    omega

end Sys2Proof.Machine
end

section
/-! Halt, the two faults, and a block that is not Running (43_halt_and_loop.md R123-R132, 60_exceptions.md
R141-R145). -/

namespace Sys2Proof.Machine

/-- Settles O29: the byte has no row, so the step is the decode fault and a run ends with its record. -/
theorem decodeFaultRule : Obligations.DecodeFaultRule := by
  intro s hrun hunlisted f t
  have hrow : lookup catalog (s.mem.read s.pc) = none := (lookup_eq_none_iff catalog _).mpr hunlisted
  have hstep : step s = .next t := by
    rw [step_eq_blockStep hrun, blockStep_of_no_row params hrow]
    rfl
  exact ⟨hstep, rfl, fun n => (runFollowsStep n s t hrun hstep).2.2 rfl⟩

/-- A row whose alu answers none makes the block raise the resolution fault, `pc` past the instruction (R124,
R142). -/
theorem blockStep_of_no_answer {c : Config.Params} {cat : List OpcodeRecord} {s : State} {r : OpcodeRecord}
    (hr : lookup cat (s.mem.read s.pc) = some r)
    (ha : alu c r.mnemonic (resolveEa c r.mode (s.pc + 1#16) s.x s.y s.mem) s.a s.x s.mem = none) :
    blockStep c cat s = (s.pastInstr r.mode).raise (.resolutionFault (s.mem.read s.pc) s.pc r.mode) := by
  simp only [blockStep, fetch, resolve, hr, ha, pastInstr_eq_fetch_then_resolve]

/-- A mode without an address has no operand byte (R79, R80). -/
theorem byteCount_of_no_address {m : AddrMode} (h : m.givesAddress = false) : m.byteCount = 0 := by
  cases m with
  | implied | accumulator => rfl
  | _ => cases h

/-- Settles O36: the alu has no address to work on, and the resolver no operand byte to pass. -/
theorem illFormedRowRaisesResolutionFault : Obligations.IllFormedRowRaisesResolutionFault := by
  intro c cat s r hr hneeds hgives f
  have hea : resolveEa c r.mode (s.pc + 1#16) s.x s.y s.mem = none := by
    simpa [hgives] using resolveEa_isSome c r.mode (s.pc + 1#16) s.x s.y s.mem
  have hblock := blockStep_of_no_answer hr ((alu_eq_none_iff c _ _ s.a s.x s.mem).mpr ⟨hneeds, hea⟩)
  refine ⟨?_, rfl⟩
  rw [hblock, State.pastInstr, byteCount_of_no_address hgives]
  rfl

/-- Settles O1: the bytes that decode to the instruction are the ones fetched. -/
theorem stepRunsDecodedInstruction : Obligations.StepRunsDecodedInstruction := by
  intro s i rest hrun hdecode _
  refine step_of_fetchInstr hrun ?_
  rw [State.fetchInstr, hdecode]
  rfl

/-- Settles O18: Halt moves `pc` past its one byte and sets the mode. -/
theorem haltRule : Obligations.HaltRule := by
  refine ⟨rfl, fun s => ⟨_, rfl, rfl, ?_, State.reg_congr rfl rfl rfl, rfl, rfl, fun _ => rfl⟩⟩
  exact BitVec.toNat_add s.pc 1#16

/-- A step of a block that is not Running is the answer of the stopped block (R132). -/
theorem step_of_not_running {s : State} (h : s.mode ≠ .running) : step s = stepStopped s := by
  obtain ⟨hrun, -⟩ | ⟨hrun, -⟩ | ⟨-, hstep⟩ := step_cases s
  · exact absurd hrun h
  · exact absurd hrun h
  · exact hstep

/-- A run of a Faulted block of a checked catalog takes no step (R65, R132). -/
theorem runBounded_faulted {cat : List OpcodeRecord} (c : Config.Params) (h : uniqueBytes cat = true) (n : Nat)
    {s : State} (hm : s.mode = .faulted) : runBounded c cat n s = .next (s, .faulted s.fault) := by
  rw [runBounded, withCatalog_of_unique h, hm]

/-- Settles O30: a Faulted block gives its record back, a Halted one is refused. -/
theorem stoppedBlockTakesNoStep : Obligations.StoppedBlockTakesNoStep := by
  refine fun s => ⟨fun f hmode hfault => ⟨?_, fun c cat n hunique => ?_⟩, fun hmode => ?_⟩
  · rw [step_of_not_running (by simp [hmode]), stepStopped, hmode, hfault]
  · rw [runBounded_faulted c hunique n hmode, hfault]
  · rw [step_of_not_running (by simp [hmode]), stepStopped, hmode]

end Sys2Proof.Machine
end

section
/-! A new instance and `reset()` (70_reset_and_hazards.md R153-R156): the state a run begins from, and what a second
reset finds. -/

namespace Sys2Proof.Machine

/-- A new instance meets the invariant: empty memory, Halted without a record, all of `p` zero (R153). -/
theorem newInstance_inv : newInstance.Inv where
  mem := rfl
  fault := by simp [newInstance]
  reserved := rfl
  zeroOrNegative := by simp [newInstance, zFlag]

/-- The reset of a new instance is the reset state: `y` is 0 already, so RESET_CLEARS_Y makes no difference
(R154, R155; log entry 2). -/
theorem applyReset_newInstance (c : Config.Params) : applyReset c newInstance = State.reset := by
  have hy : (if c.resetClearsY then 0x00#8 else newInstance.y) = 0x00#8 := ite_self _
  rw [applyReset, hy]
  rfl

/-- Settles O26: the reset state is what `reset()`, which keeps the invariant, makes of a new instance. -/
theorem resetMeetsInvariant : Obligations.ResetMeetsInvariant := by
  refine ⟨?_, newInstance_inv, applyReset_newInstance⟩
  rw [← applyReset_newInstance params]
  exact newInstance_inv.applyReset params

/-- A second reset changes nothing: memory still holds the vector, and `y` is cleared already or kept again
(R156). -/
theorem applyReset_applyReset (c : Config.Params) (s : State) :
    applyReset c (applyReset c s) = applyReset c s := by
  cases hclears : c.resetClearsY with
  | true => simp [applyReset, hclears]
  | false => simp [applyReset, hclears]

/-- Settles O41: `pc` is the word at the vector, and RESET_CLEARS_Y selects what `y` becomes. -/
theorem resetRule : Obligations.ResetRule := by
  intro c s
  have hkept (h : c.resetClearsY = false) : (applyReset c s).y = s.y := by simp [h]
  have hcleared (h : c.resetClearsY = true) : (applyReset c s).y = 0x00#8 := by simp [h]
  exact ⟨s.mem.toNat_read16 Config.resetVector, rfl, rfl, rfl, rfl, rfl, rfl, hkept, hcleared,
    applyReset_applyReset c s⟩

end Sys2Proof.Machine
end
